-- ==== Sys2Proof/Word.lean ====
section
/-! DEFINITION. The word types of the chippy CHIP-8 core (rules R8, R21, R24 to R30, R50).
Every value of the machine is an unsigned integer of a stated width (R8): a bit vector where the spec adds, masks or
shifts it, a `Fin` where it is an index into an array of the machine. -/

namespace Sys2Proof

/-- Eight bits: a general register, a timer, a memory byte, the immediate `kk` (R21, R27, R32, R73). -/
abbrev Byte := BitVec 8

/-- Sixteen bits: `pc`, `I`, a stack slot, an opcode word (R24, R25, R26, R70). -/
abbrev Word := BitVec 16

/-- The 12-bit address field `nnn` (R71, R73). -/
abbrev Addr := BitVec 12

/-- A general-register index `x` or `y`: V0 to VF (R21, R81). -/
abbrev Reg := Fin 16

/-- A key number, 0x0 to 0xF (R30). -/
abbrev Key := Fin 16

/-- An index of the display buffer, `64 * py + px`, 0 to 2047 (R29). -/
abbrev Pixel := Fin 2048

/-- The number of rows of a sprite, the field `n` of `DRW`, 0 to 15 (R73). -/
abbrev Rows := Fin 16

end Sys2Proof
end

