-- ==== Sys2Proof/Config.lean ====
section
/-! DEFINITION. What is fixed for the machine: the parameters rule R5 fixes, the parameters of rule R6 at the values this
spec gives them, and the one free value, the random byte (R132, R195). -/

namespace Sys2Proof.Config

/-- `RAM_SIZE`: bytes of memory, addresses 0x000 to 0xFFF (R5, R51). -/
@[simp] abbrev ramSize : Nat := 4096

/-- `PROGRAM_BASE`: address of the first program byte and the reset value of `pc` (R5). -/
@[simp] abbrev programBase : Nat := 0x200

/-- `MAX_ROM`: the longest program image in bytes, 4096 - 0x200 (R5, R211). -/
@[simp] abbrev maxRom : Nat := 3584

/-- `GLYPH_BYTES`: bytes of one font glyph (R5, R36). -/
@[simp] abbrev glyphBytes : Nat := 5

/-- The two values of the parameter `EDGE_POLICY` (R6, R141). -/
inductive EdgePolicy where
  /-- A sprite pixel beyond column 63 or row 31 is dropped. -/
  | clip
  /-- Every pixel coordinate is reduced modulo 64 (column) and 32 (row). -/
  | wrap
  deriving DecidableEq, Repr

/-- `EDGE_POLICY`: this spec's value is `clip` (R6, R141, decision D5; assumption log 3). -/
def edgePolicy : EdgePolicy := .clip

/-- `HAS_A_B`: whether the families Annn and Bnnn exist; this spec's value is true (R6, decision D8; assumption log 4). -/
def hasAB : Bool := true

/-- The values of the parameter `FONT`: 80 bytes, 16 glyphs of 5 bytes (R6, R36). What depends on the font, the reset and the runs
that start with it, takes it as an argument (decision D26; assumption log 5). -/
abbrev Font := Vector Byte 80

/-- `FONT_BASE`: the address the font is copied to (R6, R36). -/
@[simp] abbrev fontBase : Nat := 0x000

/-- The bytes of the 16 glyphs, digit by digit, row 0 first, as rule R36 prints them (marked there as general knowledge). -/
def fontTable : List Byte :=
  [0xF0, 0x90, 0x90, 0x90, 0xF0] ++ [0x20, 0x60, 0x20, 0x20, 0x70] ++
  [0xF0, 0x10, 0xF0, 0x80, 0xF0] ++ [0xF0, 0x10, 0xF0, 0x10, 0xF0] ++
  [0x90, 0x90, 0xF0, 0x10, 0x10] ++ [0xF0, 0x80, 0xF0, 0x10, 0xF0] ++
  [0xF0, 0x80, 0xF0, 0x90, 0xF0] ++ [0xF0, 0x10, 0x20, 0x40, 0x40] ++
  [0xF0, 0x90, 0xF0, 0x90, 0xF0] ++ [0xF0, 0x90, 0xF0, 0x10, 0xF0] ++
  [0xF0, 0x90, 0xF0, 0x90, 0x90] ++ [0xE0, 0x90, 0xE0, 0x90, 0xE0] ++
  [0xF0, 0x80, 0x80, 0x80, 0xF0] ++ [0xE0, 0x90, 0x90, 0x90, 0xE0] ++
  [0xF0, 0x80, 0xF0, 0x80, 0xF0] ++ [0xF0, 0x80, 0xF0, 0x80, 0x80]

/-- `FONT`: this spec's value, the default of the parameter (R6, R36; assumption log 5). -/
def font : Font := ⟨⟨fontTable⟩, rfl⟩

/-- `rnd`: the byte the environment supplies, under no law (R132, R195, decision D22). A free value: it has no body, so no
proof can see what any draw is; the `k`-th draw of a run is `freeRandom k` (assumption log 1). -/
opaque freeRandom : Nat → Byte

end Sys2Proof.Config
end

