-- ==== Sys2Proof/WellFormed.lean ====
section
/-! DEFINITION. Which instruction terms are instructions of the machine. The width of every operand (`x`, `y`, `n`, `kk`,
`nnn`; R71, R81) is carried by its type, so no term has an operand out of range; what is left to check is the parameter
`HAS_A_B`: with the value false the families Annn and Bnnn do not exist (R6, decision D8). -/

namespace Sys2Proof

/-- `i` is an instruction of a machine whose parameter `HAS_A_B` is `ab` (R6, R77). Rows 20 and 21 exist only with it. -/
def Instr.wellFormedWith (ab : Bool) (i : Instr) : Bool :=
  match i with
  | .ldI _ | .jpV0 _ => ab
  | .cls | .ret | .jp _ | .call _ | .seImm _ _ | .sneImm _ _ | .seReg _ _ | .ldImm _ _ | .addImm _ _ => true
  | .ldReg _ _ | .orReg _ _ | .andReg _ _ | .xorReg _ _ | .addReg _ _ | .sub _ _ | .shr _ _ | .subn _ _ | .shl _ _ => true
  | .sneReg _ _ | .rnd _ _ | .drw _ _ _ | .skp _ | .sknp _ => true
  | .ldVxDt _ | .ldVxK _ | .ldDtVx _ | .ldStVx _ | .addI _ | .ldF _ | .ldB _ | .ldMemVx _ | .ldVxMem _ => true

/-- `i` is an instruction of this machine. -/
def Instr.wellFormed (i : Instr) : Bool := i.wellFormedWith Config.hasAB

end Sys2Proof
end

