-- ==== Sys2Proof/Decode.lean ====
section
/-! DEFINITION. Decoding and encoding of the 16-bit instruction word (rules R53, R70 to R81). The decoder follows the
decode tree of rules R74 to R76; the encoder follows the patterns of rule R77; `Instr.row` is the row of rule R77's table
(`match` and `mask`), and `tableRows` is that whole table. -/

namespace Sys2Proof

/-! ## Fields (R71) -/

/-- `p`: the instruction family, `op[15:12]` (R71). -/
def fieldP (op : Word) : BitVec 4 := op.extractLsb' 12 4

/-- `x`: a register index, `op[11:8]` (R71). -/
def fieldX (op : Word) : Reg := ⟨(op.extractLsb' 8 4).toNat, (op.extractLsb' 8 4).isLt⟩

/-- `y`: a register index, `op[7:4]` (R71). -/
def fieldY (op : Word) : Reg := ⟨(op.extractLsb' 4 4).toNat, (op.extractLsb' 4 4).isLt⟩

/-- `n`: the low nibble `op[3:0]`, a sub-opcode in families 5, 8 and 9 and the sprite height in family D (R71). -/
def fieldN (op : Word) : BitVec 4 := op.extractLsb' 0 4

/-- `kk`: the low byte `op[7:0]`, an immediate or the sub-opcode of families E and F (R71). -/
def fieldKK (op : Word) : Byte := op.extractLsb' 0 8

/-- `nnn`: the 12-bit address `op[11:0]` (R71). -/
def fieldNNN (op : Word) : Addr := op.extractLsb' 0 12

/-- `n` as the number of rows of a sprite (R73). -/
def rowsOf (n : BitVec 4) : Rows := ⟨n.toNat, n.isLt⟩

/-- The word formed big-endian from the byte at the lower address and the byte after it,
`memory[pc] * 256 + memory[pc + 1]` (R53). -/
def wordOfBytes (hi lo : Byte) : Word := BitVec.ofNat 16 (hi.toNat * 256 + lo.toNat)

/-! ## The decoder (R74 to R76, R79) -/

/-- Why a byte sequence is no instruction. -/
inductive DecodeError where
  /-- Fewer than the two bytes every instruction has (R70). The step never meets it: it fetches two bytes or faults (R56). -/
  | truncated
  /-- The word matches no row of rule R77 (R79). The step turns it into the fault `InvalidOpcode`. -/
  | invalidWord (op : Word)
  deriving DecidableEq, Repr

/-- Family 0: two single words, everything else is invalid (R74, R79). -/
def decode0 (op : Word) : Except DecodeError Instr :=
  if op = 0x00E0 then .ok .cls
  else if op = 0x00EE then .ok .ret
  else .error (.invalidWord op)

/-- Family 8, by `n` (R75). -/
def decode8 (op : Word) : Except DecodeError Instr :=
  match fieldN op with
  | 0x0#4 => .ok (.ldReg (fieldX op) (fieldY op))
  | 0x1#4 => .ok (.orReg (fieldX op) (fieldY op))
  | 0x2#4 => .ok (.andReg (fieldX op) (fieldY op))
  | 0x3#4 => .ok (.xorReg (fieldX op) (fieldY op))
  | 0x4#4 => .ok (.addReg (fieldX op) (fieldY op))
  | 0x5#4 => .ok (.sub (fieldX op) (fieldY op))
  | 0x6#4 => .ok (.shr (fieldX op) (fieldY op))
  | 0x7#4 => .ok (.subn (fieldX op) (fieldY op))
  | 0xE#4 => .ok (.shl (fieldX op) (fieldY op))
  | _ => .error (.invalidWord op)

/-- Family E, by `kk` (R76). -/
def decodeE (op : Word) : Except DecodeError Instr :=
  match fieldKK op with
  | 0x9E#8 => .ok (.skp (fieldX op))
  | 0xA1#8 => .ok (.sknp (fieldX op))
  | _ => .error (.invalidWord op)

/-- Family F, by `kk` (R76). -/
def decodeF (op : Word) : Except DecodeError Instr :=
  match fieldKK op with
  | 0x07#8 => .ok (.ldVxDt (fieldX op))
  | 0x0A#8 => .ok (.ldVxK (fieldX op))
  | 0x15#8 => .ok (.ldDtVx (fieldX op))
  | 0x18#8 => .ok (.ldStVx (fieldX op))
  | 0x1E#8 => .ok (.addI (fieldX op))
  | 0x29#8 => .ok (.ldF (fieldX op))
  | 0x33#8 => .ok (.ldB (fieldX op))
  | 0x55#8 => .ok (.ldMemVx (fieldX op))
  | 0x65#8 => .ok (.ldVxMem (fieldX op))
  | _ => .error (.invalidWord op)

/-- The decoder with the parameter `HAS_A_B` as an argument: a total function of the word alone (R74, R78). -/
def decodeWordWith (ab : Bool) (op : Word) : Except DecodeError Instr :=
  match fieldP op with
  | 0x0#4 => decode0 op
  | 0x1#4 => .ok (.jp (fieldNNN op))
  | 0x2#4 => .ok (.call (fieldNNN op))
  | 0x3#4 => .ok (.seImm (fieldX op) (fieldKK op))
  | 0x4#4 => .ok (.sneImm (fieldX op) (fieldKK op))
  | 0x5#4 => if fieldN op = 0x0#4 then .ok (.seReg (fieldX op) (fieldY op)) else .error (.invalidWord op)
  | 0x6#4 => .ok (.ldImm (fieldX op) (fieldKK op))
  | 0x7#4 => .ok (.addImm (fieldX op) (fieldKK op))
  | 0x8#4 => decode8 op
  | 0x9#4 => if fieldN op = 0x0#4 then .ok (.sneReg (fieldX op) (fieldY op)) else .error (.invalidWord op)
  | 0xA#4 => if ab then .ok (.ldI (fieldNNN op)) else .error (.invalidWord op)
  | 0xB#4 => if ab then .ok (.jpV0 (fieldNNN op)) else .error (.invalidWord op)
  | 0xC#4 => .ok (.rnd (fieldX op) (fieldKK op))
  | 0xD#4 => .ok (.drw (fieldX op) (fieldY op) (rowsOf (fieldN op)))
  | 0xE#4 => decodeE op
  | 0xF#4 => decodeF op
  -- the sixteen values of a 4-bit field are all listed above
  | _ => .error (.invalidWord op)

/-- The decoder of this machine (R93: "Decode uses `op` only"). -/
def decodeWord (op : Word) : Except DecodeError Instr := decodeWordWith Config.hasAB op

/-- Decoding from a byte sequence: the instruction in its first two bytes, and the bytes after them (R53, R70). -/
def decodeBytes : List Byte → Except DecodeError (Instr × List Byte)
  | hi :: lo :: rest =>
    match decodeWord (wordOfBytes hi lo) with
    | .ok i => .ok (i, rest)
    | .error e => .error e
  | _ => .error .truncated

/-! ## The encoder (R77) -/

/-- Format A: `p` in bits 15 to 12, `nnn` in bits 11 to 0 (R72). -/
def formatA (p : BitVec 4) (nnn : Addr) : Word := BitVec.ofNat 16 (p.toNat * 4096 + nnn.toNat)

/-- Formats RI and RS: `p` in bits 15 to 12, `x` in bits 11 to 8, `kk` in bits 7 to 0 (R72). -/
def formatRI (p : BitVec 4) (x : Reg) (kk : Byte) : Word := BitVec.ofNat 16 (p.toNat * 4096 + x.val * 256 + kk.toNat)

/-- Formats RR and RRN: `p`, `x`, `y` and `n` in bits 15 to 12, 11 to 8, 7 to 4 and 3 to 0 (R72). -/
def formatRR (p : BitVec 4) (x y : Reg) (n : BitVec 4) : Word :=
  BitVec.ofNat 16 (p.toNat * 4096 + x.val * 256 + y.val * 16 + n.toNat)

/-- The word of an instruction, by the pattern of its row in rule R77. -/
def encode (i : Instr) : Word :=
  match i with
  | .cls => 0x00E0
  | .ret => 0x00EE
  | .jp nnn => formatA 0x1 nnn
  | .call nnn => formatA 0x2 nnn
  | .seImm x kk => formatRI 0x3 x kk
  | .sneImm x kk => formatRI 0x4 x kk
  | .seReg x y => formatRR 0x5 x y 0x0
  | .ldImm x kk => formatRI 0x6 x kk
  | .addImm x kk => formatRI 0x7 x kk
  | .ldReg x y => formatRR 0x8 x y 0x0
  | .orReg x y => formatRR 0x8 x y 0x1
  | .andReg x y => formatRR 0x8 x y 0x2
  | .xorReg x y => formatRR 0x8 x y 0x3
  | .addReg x y => formatRR 0x8 x y 0x4
  | .sub x y => formatRR 0x8 x y 0x5
  | .shr x y => formatRR 0x8 x y 0x6
  | .subn x y => formatRR 0x8 x y 0x7
  | .shl x y => formatRR 0x8 x y 0xE
  | .sneReg x y => formatRR 0x9 x y 0x0
  | .ldI nnn => formatA 0xA nnn
  | .jpV0 nnn => formatA 0xB nnn
  | .rnd x kk => formatRI 0xC x kk
  | .drw x y n => formatRR 0xD x y (BitVec.ofNat 4 n.val)
  | .skp x => formatRI 0xE x 0x9E
  | .sknp x => formatRI 0xE x 0xA1
  | .ldVxDt x => formatRI 0xF x 0x07
  | .ldVxK x => formatRI 0xF x 0x0A
  | .ldDtVx x => formatRI 0xF x 0x15
  | .ldStVx x => formatRI 0xF x 0x18
  | .addI x => formatRI 0xF x 0x1E
  | .ldF x => formatRI 0xF x 0x29
  | .ldB x => formatRI 0xF x 0x33
  | .ldMemVx x => formatRI 0xF x 0x55
  | .ldVxMem x => formatRI 0xF x 0x65

/-- The two bytes of an instruction as they lie in memory, the byte at the lower address first (R53). -/
def encodeBytes (i : Instr) : List Byte := [(encode i).extractLsb' 8 8, (encode i).extractLsb' 0 8]

/-! ## The opcode table (R77) -/

/-- One row of rule R77: a word `op` selects it exactly when `op & mask = pattern`. -/
structure Row where
  pattern : Word
  mask    : Word
  deriving DecidableEq, Repr

/-- `op` selects the row (R77). -/
abbrev Row.selects (r : Row) (op : Word) : Prop := op &&& r.mask = r.pattern

/-- Rows 1 to 17 of rule R77. -/
def tableRowsA : List Row :=
  [⟨0x00E0, 0xFFFF⟩, ⟨0x00EE, 0xFFFF⟩, ⟨0x1000, 0xF000⟩, ⟨0x2000, 0xF000⟩, ⟨0x3000, 0xF000⟩, ⟨0x4000, 0xF000⟩,
   ⟨0x5000, 0xF00F⟩, ⟨0x6000, 0xF000⟩, ⟨0x7000, 0xF000⟩, ⟨0x8000, 0xF00F⟩, ⟨0x8001, 0xF00F⟩, ⟨0x8002, 0xF00F⟩,
   ⟨0x8003, 0xF00F⟩, ⟨0x8004, 0xF00F⟩, ⟨0x8005, 0xF00F⟩, ⟨0x8006, 0xF00F⟩, ⟨0x8007, 0xF00F⟩]

/-- Rows 18 to 34 of rule R77. -/
def tableRowsB : List Row :=
  [⟨0x800E, 0xF00F⟩, ⟨0x9000, 0xF00F⟩, ⟨0xA000, 0xF000⟩, ⟨0xB000, 0xF000⟩, ⟨0xC000, 0xF000⟩, ⟨0xD000, 0xF000⟩,
   ⟨0xE09E, 0xF0FF⟩, ⟨0xE0A1, 0xF0FF⟩, ⟨0xF007, 0xF0FF⟩, ⟨0xF00A, 0xF0FF⟩, ⟨0xF015, 0xF0FF⟩, ⟨0xF018, 0xF0FF⟩,
   ⟨0xF01E, 0xF0FF⟩, ⟨0xF029, 0xF0FF⟩, ⟨0xF033, 0xF0FF⟩, ⟨0xF055, 0xF0FF⟩, ⟨0xF065, 0xF0FF⟩]

/-- The 34 rows of rule R77 in the table's order (R77). -/
def tableRows : List Row := tableRowsA ++ tableRowsB

/-- The index in `tableRows` of an instruction's row (R77). -/
def Instr.rowIndex (i : Instr) : Nat :=
  match i with
  | .cls => 0 | .ret => 1 | .jp _ => 2 | .call _ => 3 | .seImm _ _ => 4 | .sneImm _ _ => 5 | .seReg _ _ => 6
  | .ldImm _ _ => 7 | .addImm _ _ => 8 | .ldReg _ _ => 9 | .orReg _ _ => 10 | .andReg _ _ => 11 | .xorReg _ _ => 12
  | .addReg _ _ => 13 | .sub _ _ => 14 | .shr _ _ => 15 | .subn _ _ => 16 | .shl _ _ => 17 | .sneReg _ _ => 18
  | .ldI _ => 19 | .jpV0 _ => 20 | .rnd _ _ => 21 | .drw _ _ _ => 22 | .skp _ => 23 | .sknp _ => 24 | .ldVxDt _ => 25
  | .ldVxK _ => 26 | .ldDtVx _ => 27 | .ldStVx _ => 28 | .addI _ => 29 | .ldF _ => 30 | .ldB _ => 31 | .ldMemVx _ => 32
  | .ldVxMem _ => 33

/-- The row of rule R77 that stands for an instruction. -/
def Instr.row (i : Instr) : Row := tableRows.getD i.rowIndex ⟨0, 0⟩

/-! ## The host's reading of a table word -/

/-- The instruction the decoder reads from an instruction whose bits are `w`, numbered as the opcode table numbers them:
bit 0 is the least significant bit of the one 16-bit word (R7, R70). The word is laid out as the hardware stores it, high
byte first (R53), and given to `decodeBytes`; every bit above `nbits` is 0. -/
def decodeTableWord (nbits w : Nat) : Option Instr :=
  let bits := w % 2 ^ nbits
  match decodeBytes [BitVec.ofNat 8 (bits / 256), BitVec.ofNat 8 bits] with
  | .ok (i, _) => some i
  | .error _ => none

end Sys2Proof
end

