-- ==== Sys2Proof/Machine/State.lean ====
section
/-! DEFINITION. The state of the core, the faults and the refusals. `State` holds the eleven parts rule R20 lists, and one
field of the model's own, `draws`, which only numbers the free random bytes (assumption log 1). -/

namespace Sys2Proof.Machine

/-- The 4096 bytes of memory (R32, R51) as the list of those cells that differ from their value at reset, in rising order of
address; a cell that is not listed reads as `Memory.resetByte` gives it (assumption log 6). -/
abbrev Memory := List Host.Cell

/-- The 2048 one-bit display cells (R29) as the list of the cells that hold 1 (lit), in rising order (assumption log 7). -/
abbrev Display := List Pixel

/-- MachineState (R20), and the model's own counter of draws. -/
structure State where
  /-- `registers`: V0 to VF (R21). -/
  regs    : Vector Byte 16
  /-- `index_register`: I (R25). -/
  index   : Word
  /-- `program_counter`: pc (R24). -/
  pc      : Word
  /-- `stack`: sixteen return addresses, oldest first (R26). -/
  stack   : Vector Word 16
  /-- `stack_pointer`: the next free slot, 0 to 16 (R26). -/
  sp      : Fin 17
  /-- `delay_timer`: DT (R27). -/
  dt      : Byte
  /-- `sound_timer`: ST (R27). -/
  st      : Byte
  /-- `display_buffer`: the lit cells (R29). -/
  display : Display
  /-- `keypad`: true is pressed (R30). -/
  keys    : Vector Bool 16
  /-- `wait_key`: none is Running, `some r` is AwaitingKey for register `r` (R28). -/
  waitKey : Option Reg
  /-- `memory` (R32). -/
  mem     : Memory
  /-- The model's own field, no part of the machine: how many random bytes have been drawn (assumption log 1). -/
  draws   : Nat
  deriving DecidableEq, Repr

/-- The `kind` of an out-of-bounds access (R184). -/
inductive AccessKind where
  /-- pc or pc + 1 is no valid address at the start of a Running step (R56). -/
  | fetch
  /-- An address I + k that an instruction would access is above 0xFFF (R57). -/
  | data
  /-- A register value above 15 used as a key number (R150, R151). -/
  | keypad
  deriving DecidableEq, Repr

/-- The statuses other than `Ok` that a step returns (R180). They are the spec's own outcomes and leave the machine's
state as it was before the step (R95, R188). In every one `pc` is the address of the instruction that faulted. -/
inductive Fault where
  /-- Raised by decode, in any Running step, for a word that matches no row (R181). Safe: the spec states this fault. -/
  | invalidOpcode (opcode pc : Word)
  /-- Raised by `CALL` with sp = 16 (R182). Safe: the spec states this fault. -/
  | stackOverflow (pc : Word)
  /-- Raised by `RET` with sp = 0 (R183). Safe: the spec states this fault. -/
  | stackUnderflow (pc : Word)
  /-- Raised by the fetch, by `DRW`, `LD B`, `LD [I]` and `LD Vx, [I]`, and by `SKP` and `SKNP` (R184). Safe: the spec
  states this fault. -/
  | outOfBoundsAccess (pc : Word) (kind : AccessKind)
  deriving DecidableEq, Repr

/-- What the model has no meaning for. -/
inductive Refusal where
  /-- An instruction whose meaning is not written; no arm of this model's dispatch answers with it. Safe: the model stops. -/
  | notModelled (mnemonic : String)
  /-- Raised by the environment action `reset(rom)`, never by a step, for an image of more than 3584 bytes: the spec refuses it
  and creates no state (R211). Safe: the spec states this refusal. -/
  | romTooLong (length : Nat)
  deriving DecidableEq, Repr

/-- The three outcomes of a step of this machine. -/
abbrev Result := Host.Outcome State Fault Refusal

/-- The machine right after `reset` with the default `FONT` and the empty image: every part at the value rule R35 gives it. Memory
lists nothing: an unlisted cell reads as its reset value, the font at 0x000 to 0x04F and zero elsewhere. -/
def State.reset : State where
  regs    := Vector.replicate 16 0
  index   := 0
  pc      := 0x200
  stack   := Vector.replicate 16 0
  sp      := 0
  dt      := 0
  st      := 0
  display := []
  keys    := Vector.replicate 16 false
  waitKey := none
  mem     := []
  draws   := 0

end Sys2Proof.Machine
end

