-- ==== Sys2Proof/Machine/Display.lean ====
section
/-! DEFINITION. The display as the list of its lit cells in canonical form (rules R29, R141). -/

namespace Sys2Proof.Machine

/-- The canonical form of a display: the lit cells in strictly rising order. -/
abbrev Display.wf (d : Display) : Prop := d.Pairwise (fun a b => a < b)

/-- Lights a cell that is not lit: it is put in front of the first higher one. -/
def Display.light (c : Pixel) : Display → Display
  | [] => [c]
  | e :: d => if c < e then c :: e :: d else e :: Display.light c d

/-- `Disp[idx] <- Disp[idx] ^ 1` (R141). -/
def Display.toggle (d : Display) (c : Pixel) : Display :=
  if c ∈ d then d.filter (fun e => e != c) else Display.light c d

end Sys2Proof.Machine
end

