-- ==== Sys2Proof/Machine/Memory.lean ====
section
/-! DEFINITION. Memory as a list in canonical form (rules R32, R50 to R57): what an unlisted cell reads as, the read and the
write of one byte, both bounds-checked, and of several bytes at ascending addresses. -/

namespace Sys2Proof.Machine

/-- What an unlisted cell reads as: the byte at address `a` after a reset with the default `FONT` and the empty image, the table of
rule R36 from address 0 and zero everywhere else (R35, R36, R52). It fixes how memory is written down, not what a font is: after
a reset with another `FONT` the cells that differ from the default are listed (`Memory.image`; assumption log 5 and 6). -/
def Memory.resetByte (a : Nat) : Byte := Config.fontTable.getD a 0

/-- The byte in the cell `a`, without a bounds check: that of the list's entry for `a`, else the reset value. -/
def Memory.cell (m : Memory) (a : Nat) : Byte :=
  match m with
  | [] => Memory.resetByte a
  | c :: m' => if c.1 = a then c.2 else Memory.cell m' a

/-- Puts a cell in front of the first cell with a higher address. -/
def Memory.insert (a : Nat) (b : Byte) : Memory → Memory
  | [] => [(a, b)]
  | c :: m => if a < c.1 then (a, b) :: c :: m else c :: Memory.insert a b m

/-- The cells at other addresses than `a`. -/
def Memory.without (m : Memory) (a : Nat) : Memory := m.filter (fun c => c.1 != a)

/-- Writes the cell `a`, without a bounds check, and keeps the canonical form: the value an unlisted cell reads as removes
the entry. -/
def Memory.put (m : Memory) (a : Nat) (b : Byte) : Memory :=
  if b = Memory.resetByte a then m.without a else Memory.insert a b (m.without a)

/-- The canonical form: addresses strictly rising and valid (R51), and no entry equal to what an unlisted cell reads as. -/
abbrev Memory.wf (m : Memory) : Prop :=
  m.Pairwise (fun c d => c.1 < d.1) ∧ ∀ c ∈ m, c.1 < Config.ramSize ∧ c.2 ≠ Memory.resetByte c.1

/-- `MemRead(addr, 1)` with `addr` an unbounded integer: the byte, or nothing where the address is above 0xFFF (R55). -/
def Memory.read (m : Memory) (a : Nat) : Option Byte := if a ≤ 0xFFF then some (m.cell a) else none

/-- `MemWrite(addr, 1, v)`: the memory after it, or nothing where the address is above 0xFFF (R55). -/
def Memory.write (m : Memory) (a : Nat) (b : Byte) : Option Memory := if a ≤ 0xFFF then some (m.put a b) else none

/-- The `n` bytes at ascending addresses from `a`, or nothing where one of them is out of bounds (R54, R57). The addresses
are unbounded integers: nothing wraps. -/
def Memory.readBytes (m : Memory) (a : Nat) : Nat → Option (List Byte)
  | 0 => some []
  | n + 1 =>
    match m.read a with
    | none => none
    | some b =>
      match Memory.readBytes m (a + 1) n with
      | none => none
      | some bs => some (b :: bs)

/-- Writes the bytes at ascending addresses from `a`; nothing where one address is out of bounds, so that no part of a
store is ever left behind (R54, R57, R59). -/
def Memory.writeBytes (m : Memory) (a : Nat) : List Byte → Option Memory
  | [] => some m
  | b :: bs =>
    match m.write a b with
    | none => none
    | some m' => Memory.writeBytes m' (a + 1) bs

/-- Memory after a reset with the parameter `FONT` as an argument and a program image: the font's 80 bytes at `FONT_BASE`, the image
at 0x200, zero everywhere else; nothing where the image does not fit below 0x1000 (R36, R210, R211). -/
def Memory.image (font : Config.Font) (rom : List Byte) : Option Memory :=
  match Memory.writeBytes [] Config.fontBase font.toList with
  | none => none
  | some m => m.writeBytes Config.programBase rom

end Sys2Proof.Machine
end

