-- ==== Sys2Proof/Machine/Ops.lean ====
section
/-! DEFINITION. The named operations over the state that the meanings share (rule R9's primitives): registers, program
counter, stack, keypad and memory; raising a fault; fetching. -/

namespace Sys2Proof.Machine

/-! ## The single updates: every write of a meaning goes through these -/

/-- `V[x] <- b` (R9). -/
def State.setReg (s : State) (x : Reg) (b : Byte) : State := { s with regs := s.regs.set x.val b }

/-- `I <- w` (R9). -/
def State.setIndex (s : State) (w : Word) : State := { s with index := w }

/-- `pc <- target` (R9). -/
def State.jump (s : State) (target : Word) : State := { s with pc := target }

/-- `Stack[k] <- w` (R9). -/
def State.setSlot (s : State) (k : Fin 16) (w : Word) : State := { s with stack := s.stack.set k.val w }

/-- `sp <- n` (R9). -/
def State.setSp (s : State) (n : Fin 17) : State := { s with sp := n }

/-- `DT <- b` (R9). -/
def State.setDt (s : State) (b : Byte) : State := { s with dt := b }

/-- `ST <- b` (R9). -/
def State.setSt (s : State) (b : Byte) : State := { s with st := b }

/-- The display after a clear or a draw (R29). -/
def State.setDisplay (s : State) (d : Display) : State := { s with display := d }

/-- `Key[k] <- pressed` (R9, R193). -/
def State.setKey (s : State) (k : Key) (pressed : Bool) : State := { s with keys := s.keys.set k.val pressed }

/-- `wait_key <- w` (R9, R28). -/
def State.setWait (s : State) (w : Option Reg) : State := { s with waitKey := w }

/-- Memory after a store (R32). -/
def State.setMem (s : State) (m : Memory) : State := { s with mem := m }

/-- The draw has been used: the next one is another free value (assumption log 1). -/
def State.nextDraw (s : State) : State := { s with draws := s.draws + 1 }

/-! ## Registers -/

/-- `V[x]` (R9). -/
def State.reg (s : State) (x : Reg) : Byte := s.regs[x.val]

/-- The index of VF, the flag register (R23). -/
abbrev vf : Reg := 15

/-- `V[15] <- f`: the flag is written as a whole register, after the result (R23, R120). -/
def State.setFlag (s : State) (f : Byte) : State := s.setReg vf f

/-! ## Program counter (R92, R96) -/

/-- `npc`: the address of the next instruction, `(a + 2) mod 65536`, in a state whose pc is still the instruction's own
address `a` (R9, R92). -/
def State.npc (s : State) : Word := s.pc + 2

/-- `pc <- npc` (R92). -/
def State.advance (s : State) : State := s.jump s.npc

/-- `pc <- npc`, and `pc <- (npc + 2) mod 65536` where the condition of a skip holds (R96). -/
def State.skipIf (s : State) (c : Bool) : State := if c then s.jump (s.npc + 2) else s.advance

/-! ## Raising a fault

The core has no trap entry and no return from one (R188, R189): no handler runs, nothing is saved, no mode changes. A fault
is delivered out of the machine as the status of the step. -/

/-- `raise <Status>(info)`: the step ends at once with that status and the machine keeps the state it had before the step
(R95, R188). -/
def raise (f : Fault) : Result := .fault f

/-! ## Stack (R26) -/

/-- `Stack[k]` (R9). -/
def State.slot (s : State) (k : Fin 16) : Word := s.stack[k.val]

/-- `Stack[sp] <- w; sp <- sp + 1`, or nothing where sp = 16 (R103). -/
def State.push (s : State) (w : Word) : Option State :=
  if h : s.sp.val < 16 then
    some ((s.setSlot ⟨s.sp.val, h⟩ w).setSp ⟨s.sp.val + 1, by omega⟩)
  else none

/-- `sp <- sp - 1` and the slot just freed, which keeps its value, or nothing where sp = 0 (R101). -/
def State.pop (s : State) : Option (Word × State) :=
  if h : 0 < s.sp.val then
    some (s.slot ⟨s.sp.val - 1, by omega⟩, s.setSp ⟨s.sp.val - 1, by omega⟩)
  else none

/-! ## Display (R29) -/

/-- `Disp[idx]`: true is lit (R9, R29). -/
def State.pixel (s : State) (c : Pixel) : Bool := decide (c ∈ s.display)

/-! ## Keypad (R30) -/

/-- `Key[k]`: true is pressed (R9). -/
def State.key (s : State) (k : Key) : Bool := s.keys[k.val]

/-- The least pressed key, if any key is pressed (R91). -/
def State.lowestKey (s : State) : Option Key := (List.finRange 16).find? (fun k => s.key k)

/-! ## Memory (R55, R56) -/

/-- `MemRead(addr, 1)`: nothing where `addr` is above 0xFFF (R55). -/
def State.memRead (s : State) (a : Nat) : Option Byte := s.mem.read a

/-- `MemWrite(addr, 1, b)`: nothing where `addr` is above 0xFFF (R55). -/
def State.memWrite (s : State) (a : Nat) (b : Byte) : Option State :=
  match s.mem.write a b with
  | none => none
  | some m => some (s.setMem m)

/-- The state with the two bytes of a word stored at `a` and `a + 1`, high byte first (R53); what a loader does, no act of the
machine. -/
def State.placeWord (s : State) (a : Nat) (hi lo : Byte) : State := s.setMem ((s.mem.put a hi).put (a + 1) lo)

/-- `MemRead(pc, 2)`: the big-endian word at pc and pc + 1, or nothing where one of the two is no valid address (R53, R56). -/
def State.fetchWord (s : State) : Option Word :=
  match s.memRead s.pc.toNat, s.memRead (s.pc.toNat + 1) with
  | some hi, some lo => some (wordOfBytes hi lo)
  | _, _ => none

/-- Fetch and decode of a Running step: the instruction at pc, or the fault the step raises, the fetch bound first and the
invalid word second (R92, R93, R187). -/
def State.fetchInstr (s : State) : Except Fault Instr :=
  match s.fetchWord with
  | none => .error (.outOfBoundsAccess s.pc .fetch)
  | some op =>
    match decodeWord op with
    | .ok i => .ok i
    | .error _ => .error (.invalidOpcode op s.pc)

end Sys2Proof.Machine
end

