-- ==== Sys2Proof/Machine/Operands.lean ====
section
/-! DEFINITION. The operand forms of the instruction set (rules R73, R169): an address field widened to 16 bits, the registers V0 to
Vx, the bytes at I, a key number taken from a register, the random byte. The other two forms need no operation: `V[x]` is
`State.reg`, and `kk` is used as it is (R73). -/

namespace Sys2Proof.Machine

/-- `zext_16(nnn)` (R8, R73). -/
def zextAddr (nnn : Addr) : Word := nnn.setWidth 16

/-- `zext_16(b)` of a byte (R8). -/
def zextByte (b : Byte) : Word := b.setWidth 16

/-- The values of V0 to Vx, V0 first: `x + 1` bytes (R22, R167). -/
def State.regsTo (s : State) (x : Reg) : List Byte := s.regs.toList.take (x.val + 1)

/-- `V[i] <- bytes[i]` for every `i` below the number of bytes; the registers above keep their values (R168). -/
def State.setRegs (s : State) (bytes : List Byte) : State :=
  { s with regs := Vector.ofFn (fun r : Fin 16 => bytes.getD r.val (s.reg r)) }

/-- The `n` bytes at I, I + 1, … , nothing where one of the addresses is above 0xFFF (R57, R169). -/
def State.bytesAtIndex (s : State) (n : Nat) : Option (List Byte) := s.mem.readBytes s.index.toNat n

/-- Stores bytes at I, I + 1, … , all of them or, where one of the addresses is above 0xFFF, none (R57, R169). -/
def State.storeAtIndex (s : State) (bytes : List Byte) : Option State :=
  match s.mem.writeBytes s.index.toNat bytes with
  | none => none
  | some m => some (s.setMem m)

/-- The value of Vx as a key number, nothing where it is above 15: it is not masked (R150, R151). -/
def State.keyNumber (s : State) (x : Reg) : Option Key :=
  if h : (s.reg x).toNat < 16 then some ⟨(s.reg x).toNat, h⟩ else none

/-- `rnd`: the random byte the environment supplies for this draw, a free value (R132, R195; assumption log 1). -/
def State.randomByte (s : State) : Byte := Config.freeRandom s.draws

end Sys2Proof.Machine
end

