-- ==== Sys2Proof/Machine/Flags.lean ====
section
/-! DEFINITION. The values written to VF as a flag (rule R23): always 0x00 or 0x01. -/

namespace Sys2Proof.Machine

/-- A flag write is 0x00 or 0x01 (R23). -/
def flagOf (c : Bool) : Byte := if c then 1 else 0

/-- Carry of an addition: 1 if the unsigned sum exceeds 255 (R127). -/
def carryFlag (a b : Byte) : Byte := flagOf (decide (255 < a.toNat + b.toNat))

/-- Not-borrow of `a - b`: 1 if `a ≥ b` before the subtraction (R128, R130). -/
def notBorrowFlag (a b : Byte) : Byte := flagOf (decide (b.toNat ≤ a.toNat))

/-- The bit a right shift drops: bit 0 before the shift (R129). -/
def shiftRightFlag (a : Byte) : Byte := flagOf (a.getLsbD 0)

/-- The bit a left shift drops: bit 7 before the shift (R131). -/
def shiftLeftFlag (a : Byte) : Byte := flagOf (a.getLsbD 7)

/-- Collision of a draw: 1 if a lit cell became unlit (R141, R142). -/
def collisionFlag (c : Bool) : Byte := flagOf c

end Sys2Proof.Machine
end

