-- ==== Sys2Proof/Machine/Alu.lean ====
section
/-! DEFINITION. Load immediate, add immediate, the ALU family 8xy_ and random (rules R120 to R133). Both operands are read first,
then the result is written to Vx, then the flag, where the instruction has one, to VF (R120). Every instruction ends with
pc = (a + 2) mod 65536 and none can raise. -/

namespace Sys2Proof.Machine

/-! ## Arithmetic: computed on integers and narrowed (R8, R133) -/

/-- `(a + b) mod 256` (R122, R127). -/
def addByte (a b : Byte) : Byte := BitVec.ofNat 8 (a.toNat + b.toNat)

/-- `(a - b) mod 256` (R128, R130). -/
def subByte (a b : Byte) : Byte := BitVec.ofInt 8 ((a.toNat : Int) - (b.toNat : Int))

/-- `a >> 1`, a logical shift (R129). -/
def shiftRightByte (a : Byte) : Byte := BitVec.ofNat 8 (a.toNat / 2)

/-- `(a << 1) mod 256` (R131). -/
def shiftLeftByte (a : Byte) : Byte := BitVec.ofNat 8 (2 * a.toNat)

/-- An instruction that writes a result to Vx and no flag (R120). -/
def writeResult (x : Reg) (r : Byte) (s : State) : Result := .next (s.advance.setReg x r)

/-- An instruction that writes a result to Vx and then a flag to VF (R120). -/
def writeResultFlag (x : Reg) (r f : Byte) (s : State) : Result := .next ((s.advance.setReg x r).setFlag f)

/-! ## The instructions -/

/-- `LD Vx, kk` (R121). -/
def execLdImm (x : Reg) (kk : Byte) (s : State) : Result := writeResult x kk s

/-- `ADD Vx, kk`: wraps modulo 256 and writes no flag (R122). -/
def execAddImm (x : Reg) (kk : Byte) (s : State) : Result := writeResult x (addByte (s.reg x) kk) s

/-- `LD Vx, Vy` (R123). -/
def execLdReg (x y : Reg) (s : State) : Result := writeResult x (s.reg y) s

/-- `OR Vx, Vy`: VF is not written (R124). -/
def execOr (x y : Reg) (s : State) : Result := writeResult x (s.reg x ||| s.reg y) s

/-- `AND Vx, Vy`: VF is not written (R125). -/
def execAnd (x y : Reg) (s : State) : Result := writeResult x (s.reg x &&& s.reg y) s

/-- `XOR Vx, Vy`: VF is not written (R126). -/
def execXor (x y : Reg) (s : State) : Result := writeResult x (s.reg x ^^^ s.reg y) s

/-- `ADD Vx, Vy` with carry flag (R127). -/
def execAddReg (x y : Reg) (s : State) : Result :=
  writeResultFlag x (addByte (s.reg x) (s.reg y)) (carryFlag (s.reg x) (s.reg y)) s

/-- `SUB Vx, Vy` with not-borrow flag (R128). -/
def execSub (x y : Reg) (s : State) : Result :=
  writeResultFlag x (subByte (s.reg x) (s.reg y)) (notBorrowFlag (s.reg x) (s.reg y)) s

/-- `SHR Vx`: Vx is shifted in place, `y` is ignored (R129). -/
def execShr (x _y : Reg) (s : State) : Result :=
  writeResultFlag x (shiftRightByte (s.reg x)) (shiftRightFlag (s.reg x)) s

/-- `SUBN Vx, Vy`: `Vy - Vx` with not-borrow flag (R130). -/
def execSubn (x y : Reg) (s : State) : Result :=
  writeResultFlag x (subByte (s.reg y) (s.reg x)) (notBorrowFlag (s.reg y) (s.reg x)) s

/-- `SHL Vx`: Vx is shifted in place, `y` is ignored (R131). -/
def execShl (x _y : Reg) (s : State) : Result :=
  writeResultFlag x (shiftLeftByte (s.reg x)) (shiftLeftFlag (s.reg x)) s

/-- `RND Vx, kk`: the random byte ANDed with `kk` (R132). -/
def execRnd (x : Reg) (kk : Byte) (s : State) : Result := writeResult x (s.randomByte &&& kk) s.nextDraw

end Sys2Proof.Machine
end

