-- ==== Sys2Proof/Machine/Control.lean ====
section
/-! DEFINITION. Control flow: return, jumps, call and the four skips on registers (rules R96, R100 to R108). -/

namespace Sys2Proof.Machine

/-- `RET`: pops the return address, unchanged, into pc; faults on an empty stack (R101). -/
def execRet (s : State) : Result :=
  match s.pop with
  | none => raise (.stackUnderflow s.pc)
  | some (target, s') => .next (s'.jump target)

/-- `JP nnn` (R102). -/
def execJp (nnn : Addr) (s : State) : Result := .next (s.jump (zextAddr nnn))

/-- `CALL nnn`: pushes the address of the next instruction; faults with sixteen calls outstanding (R103). -/
def execCall (nnn : Addr) (s : State) : Result :=
  match s.push s.npc with
  | none => raise (.stackOverflow s.pc)
  | some s' => .next (s'.jump (zextAddr nnn))

/-- `SE Vx, kk` (R104). -/
def execSeImm (x : Reg) (kk : Byte) (s : State) : Result := .next (s.skipIf (s.reg x == kk))

/-- `SNE Vx, kk` (R105). -/
def execSneImm (x : Reg) (kk : Byte) (s : State) : Result := .next (s.skipIf (s.reg x != kk))

/-- `SE Vx, Vy` (R106). -/
def execSeReg (x y : Reg) (s : State) : Result := .next (s.skipIf (s.reg x == s.reg y))

/-- `SNE Vx, Vy` (R107). -/
def execSneReg (x y : Reg) (s : State) : Result := .next (s.skipIf (s.reg x != s.reg y))

/-- `JP V0, nnn` (R108). -/
def execJpV0 (nnn : Addr) (s : State) : Result := .next (s.jump (zextAddr nnn + zextByte (s.reg 0)))

end Sys2Proof.Machine
end

