-- ==== Sys2Proof/Machine/Draw.lean ====
section
/-! DEFINITION. The display: clear, and the sprite draw with its collision comparator (rules R29, R140 to R143). -/

namespace Sys2Proof.Machine

/-! ## The cells of a sprite (R141) -/

/-- The cell of the pixel at column `px` and row `py`, both unbounded, under an edge policy: `64 * py + px` where both are in
range, else nothing (`clip`) or the cell of the reduced coordinates (`wrap`) (R141). -/
def pixelAt (p : Config.EdgePolicy) (px py : Nat) : Option Pixel :=
  match p with
  | .clip => if h : px ≤ 63 ∧ py ≤ 31 then some ⟨64 * py + px, by omega⟩ else none
  | .wrap => some ⟨64 * (py % 32) + px % 64, by omega⟩

/-- The columns of a sprite row, leftmost first (R141). -/
def spriteColumns : List Nat := [0, 1, 2, 3, 4, 5, 6, 7]

/-- The cells of the set bits of one sprite row; bit 7 is the leftmost pixel, column 0 (R141). -/
def rowCells (p : Config.EdgePolicy) (vx py : Nat) (b : Byte) : List Pixel :=
  spriteColumns.filterMap (fun col => if b.getLsbD (7 - col) then pixelAt p (vx + col) py else none)

/-- The cells a sprite touches, row by row from row `py` down: its set bits that are not dropped (R141). -/
def spriteCells (p : Config.EdgePolicy) (vx : Nat) : Nat → List Byte → List Pixel
  | _, [] => []
  | py, b :: rows => rowCells p vx py b ++ spriteCells p vx (py + 1) rows

/-- XORs the cells into the display one after the other; the collision bit is set when a lit cell becomes unlit (R141). -/
def drawCells : Display → Bool → List Pixel → Display × Bool
  | d, hit, [] => (d, hit)
  | d, hit, c :: cells => drawCells (d.toggle c) (hit || decide (c ∈ d)) cells

/-- The draw of a sprite's rows at (Vx, Vy) under an edge policy: the display, then VF, last (R141). -/
def drawSprite (p : Config.EdgePolicy) (x y : Reg) (rows : List Byte) (s : State) : State :=
  let drawn := drawCells s.display false (spriteCells p (s.reg x).toNat (s.reg y).toNat rows)
  (s.setDisplay drawn.1).setFlag (collisionFlag drawn.2)

/-! ## The instructions -/

/-- `CLS` (R140). -/
def execCls (s : State) : Result := .next (s.advance.setDisplay [])

/-- `DRW Vx, Vy, n`: faults, with nothing drawn, where one of the `n` sprite bytes lies above 0xFFF (R57, R141). -/
def execDrw (x y : Reg) (n : Rows) (s : State) : Result :=
  match s.bytesAtIndex n.val with
  | none => raise (.outOfBoundsAccess s.pc .data)
  | some rows => .next (drawSprite Config.edgePolicy x y rows s.advance)

end Sys2Proof.Machine
end

