-- ==== Sys2Proof/Machine/IndexMemory.lean ====
section
/-! DEFINITION. The index register, the timers and the memory transfers (rules R160 to R169). No instruction here writes VF as
a flag, and none of the memory transfers changes I (R169). -/

namespace Sys2Proof.Machine

/-! ## Index register -/

/-- `LD I, nnn` (R160). -/
def execLdI (nnn : Addr) (s : State) : Result := .next (s.advance.setIndex (zextAddr nnn))

/-- `ADD I, Vx`: wraps modulo 65536, and VF is not written (R164). -/
def execAddI (x : Reg) (s : State) : Result := .next (s.advance.setIndex (s.index + zextByte (s.reg x)))

/-- `LD F, Vx`: `5 * Vx` on the whole 8-bit value (R165). -/
def execLdF (x : Reg) (s : State) : Result :=
  .next (s.advance.setIndex (BitVec.ofNat 16 (Config.glyphBytes * (s.reg x).toNat)))

/-! ## Timers -/

/-- `LD Vx, DT` (R161). -/
def execLdVxDt (x : Reg) (s : State) : Result := .next (s.advance.setReg x s.dt)

/-- `LD DT, Vx` (R162). -/
def execLdDtVx (x : Reg) (s : State) : Result := .next (s.advance.setDt (s.reg x))

/-- `LD ST, Vx` (R163). -/
def execLdStVx (x : Reg) (s : State) : Result := .next (s.advance.setSt (s.reg x))

/-! ## Memory -/

/-- The three decimal digits of a byte, hundreds first, one digit a byte (R166). -/
def bcdDigits (v : Byte) : List Byte :=
  [BitVec.ofNat 8 (v.toNat / 100), BitVec.ofNat 8 (v.toNat / 10 % 10), BitVec.ofNat 8 (v.toNat % 10)]

/-- A store of bytes at I: all of them, or the fault `OutOfBoundsAccess(data)` and none of them (R57, R95). -/
def storeBytes (bytes : List Byte) (s : State) : Result :=
  match s.storeAtIndex bytes with
  | none => raise (.outOfBoundsAccess s.pc .data)
  | some s' => .next s'.advance

/-- `LD B, Vx`: the digits at I, I + 1 and I + 2 (R166). -/
def execLdB (x : Reg) (s : State) : Result := storeBytes (bcdDigits (s.reg x)) s

/-- `LD [I], Vx`: V0 to Vx at I to I + x (R167). -/
def execLdMemVx (x : Reg) (s : State) : Result := storeBytes (s.regsTo x) s

/-- `LD Vx, [I]`: V0 to Vx from I to I + x (R168). -/
def execLdVxMem (x : Reg) (s : State) : Result :=
  match s.bytesAtIndex (x.val + 1) with
  | none => raise (.outOfBoundsAccess s.pc .data)
  | some bytes => .next (s.advance.setRegs bytes)

end Sys2Proof.Machine
end

