-- ==== Sys2Proof/Machine/Keypad.lean ====
section
/-! DEFINITION. The key skips, the wait for a key, and the poll of the AwaitingKey state (rules R91, R150 to R153). -/

namespace Sys2Proof.Machine

/-- `SKP Vx`: the key number is the value of Vx; a value above 15 faults (R150). -/
def execSkp (x : Reg) (s : State) : Result :=
  match s.keyNumber x with
  | none => raise (.outOfBoundsAccess s.pc .keypad)
  | some k => .next (s.skipIf (s.key k))

/-- `SKNP Vx`: the key number is the value of Vx; a value above 15 faults, whether or not a skip would follow (R151). -/
def execSknp (x : Reg) (s : State) : Result :=
  match s.keyNumber x with
  | none => raise (.outOfBoundsAccess s.pc .keypad)
  | some k => .next (s.skipIf (!s.key k))

/-- `LD Vx, K`: enters AwaitingKey; this step does not look at the keypad and does not write Vx (R152). -/
def execLdVxK (x : Reg) (s : State) : Result := .next (s.advance.setWait (some x))

/-- The step of the state AwaitingKey for register `r`: nothing is fetched and pc stays; the least pressed key, if there is
one, is written to `V[r]` and the machine is Running again (R91). It cannot fault. -/
def pollKeypad (r : Reg) (s : State) : State :=
  match s.lowestKey with
  | none => s
  | some k => (s.setReg r (BitVec.ofNat 8 k.val)).setWait none

end Sys2Proof.Machine
end

