-- ==== Sys2Proof/Machine/Step.lean ====
section
/-! DEFINITION. One step: the poll of the AwaitingKey state, or fetch, decode and execute (rules R90 to R95). -/

namespace Sys2Proof.Machine

/-- `step` (R90). In AwaitingKey it polls the keypad (R91). In Running it fetches and decodes at pc (R92, R93) and runs the
instruction's meaning, which moves pc to npc or to the instruction's target (R96). -/
def step (s : State) : Host.Outcome State Fault Refusal :=
  match s.waitKey with
  | some r => .next (pollKeypad r s)
  | none =>
    match s.fetchInstr with
    | .error f => raise f
    | .ok i => exec i s

/-- The state in which the very next step fetches and runs the instruction whose word is `w` (numbered as the opcode table
numbers it): the word's two bytes stand at pc, high byte first (R53), and the machine is Running (R28). Where no word can be
fetched at pc (R56), pc is set to the entry point 0x200 (assumption log 8). -/
def State.withFetchWord (s : State) (nbits w : Nat) : State :=
  let bits := w % 2 ^ nbits
  let a := if s.pc.toNat ≤ 0xFFE then s.pc.toNat else Config.programBase
  { s with pc := BitVec.ofNat 16 a, waitKey := none }.placeWord a (BitVec.ofNat 8 (bits / 256)) (BitVec.ofNat 8 bits)

end Sys2Proof.Machine
end

