-- ==== Sys2Proof/Machine/Environment.lean ====
section
/-! DEFINITION. The host's actions between two steps and its read-only views (rules R191 to R196, R210 to R214), and the
status codes of a step (R180). -/

namespace Sys2Proof.Machine

/-- `reset(rom)` with the parameter `FONT` as an argument: the reset state with the font at 0x000 and the image at 0x200; an image that does not fit below 0x1000 (more than 3584 bytes) is
refused and no state is created (R192, R210, R211). The environment's sequence of random bytes is not part of what reset fixes
(R213): the draws go on from where they were. -/
def resetWith (font : Config.Font) (rom : List Byte) (s : State) : Result :=
  match Memory.image font rom with
  | none => .refused (.romTooLong rom.length)
  | some m => .next { State.reset with mem := m, draws := s.draws }

/-- `set_key(k, pressed)` (R193). -/
def setKey (k : Key) (pressed : Bool) (s : State) : State := s.setKey k pressed

/-- One timer of `timer_tick`: decremented while it is above 0 (R194). -/
def tick (t : Byte) : Byte := if 0 < t.toNat then BitVec.ofNat 8 (t.toNat - 1) else t

/-- `timer_tick()`: both timers (R194). -/
def timerTick (s : State) : State := (s.setDt (tick s.dt)).setSt (tick s.st)

/-- The host's actions on the state between two steps (R191). The fourth, the random byte, is the free value (R195). -/
inductive HostAction where
  /-- `reset(rom)` (R192). -/
  | reset (rom : List Byte)
  /-- `set_key(k, pressed)` (R193). -/
  | setKey (k : Key) (pressed : Bool)
  /-- `timer_tick()` (R194). -/
  | timerTick
  deriving DecidableEq, Repr

/-- The effect of an environment action (R191) in a machine whose parameter `FONT` is `font` (R6); only the reset uses it (R33). -/
def hostAct (font : Config.Font) (a : HostAction) (s : State) : Result :=
  match a with
  | .reset rom => resetWith font rom s
  | .setKey k pressed => .next (setKey k pressed s)
  | .timerTick => .next (timerTick s)

/-- The host's view of the pixel at column `px` and row `py` (R29, R196). -/
def State.viewPixel (s : State) (px : Fin 64) (py : Fin 32) : Bool := s.pixel ⟨64 * py.val + px.val, by omega⟩

/-- The host's view of the delay timer (R196). -/
def State.viewDelay (s : State) : Byte := s.dt

/-- The host's view of the sound timer (R196). -/
def State.viewSound (s : State) : Byte := s.st

/-- MachineState after an event that started in `s` (`S'` of R90): that of the outcome where it completes, and `s` itself, unchanged in
every part, where it raises (R94, R95, R188) or is refused (R211). -/
def stateAfter (s : State) (r : Result) : State :=
  match r with
  | .next t => t
  | .fault _ => s
  | .refused _ => s

/-- The numeric code of a step's status (R180). -/
def statusCode (r : Result) : Option Nat :=
  match r with
  | .next _ => some 0
  | .fault (.invalidOpcode _ _) => some 1
  | .fault (.stackOverflow _) => some 2
  | .fault (.stackUnderflow _) => some 3
  | .fault (.outOfBoundsAccess _ _) => some 4
  | .refused _ => none

end Sys2Proof.Machine
end

