-- ==== Sys2Proof/Safety.lean ====
section
/-! DEFINITION. The terms claims are stated in: the invariant (R37), runs of steps and environment actions (R62, R97, R191), and
what an instruction leaves unchanged, part by part of the state, each said through the read of that part. -/

namespace Sys2Proof.Machine

/-! ## The invariant -/

/-- Every live stack slot holds an address 0x0002 to 0x1000, since `CALL` is its only writer (R37). -/
def State.stackLive (s : State) : Prop :=
  ∀ k : Fin 16, k.val < s.sp.val → 2 ≤ (s.slot k).toNat ∧ (s.slot k).toNat ≤ 0x1000

/-- The invariant: the bounds of rule R37 that the types of `State` do not carry already (the live stack slots), and the
canonical forms of the two lists of the state. -/
structure State.Inv (s : State) : Prop where
  memory  : Memory.wf s.mem
  display : Display.wf s.display
  stack   : s.stackLive

/-! ## Runs -/

/-- What can happen next: a step, or an environment action between two steps (R191). -/
inductive Event where
  | step
  | act (a : HostAction)
  deriving DecidableEq, Repr

/-- The outcome of an event in a machine whose parameter `FONT` is `font`. -/
def event (font : Config.Font) (e : Event) (s : State) : Result :=
  match e with
  | .step => Machine.step s
  | .act a => hostAct font a s

/-- The states of runs of a machine whose parameter `FONT` is `font`: a reset with some image, then any interleaving of steps and environment actions (R97, R191). -/
inductive Reachable (font : Config.Font) : State → Prop where
  | start {rom : List Byte} {s₀ s : State} : resetWith font rom s₀ = .next s → Reachable font s
  | event {e : Event} {s s' : State} : Reachable font s → Machine.event font e s = .next s' → Reachable font s'

/-- A state from which the next `n` steps all return `Ok` (R97): a safe run of `n` steps. -/
def RunsOk : Nat → State → Prop
  | 0, _ => True
  | n + 1, s => ∃ s', step s = .next s' ∧ RunsOk n s'

/-! ## Which instructions do what (R23, R38, R185) -/

/-- The six instructions that write VF as a flag (R23). -/
def writesFlag (i : Instr) : Bool :=
  match i with
  | .addReg _ _ | .sub _ _ | .shr _ _ | .subn _ _ | .shl _ _ | .drw _ _ _ => true
  | .cls | .ret | .jp _ | .call _ | .seImm _ _ | .sneImm _ _ | .seReg _ _ | .ldImm _ _ | .addImm _ _ => false
  | .ldReg _ _ | .orReg _ _ | .andReg _ _ | .xorReg _ _ | .sneReg _ _ | .ldI _ | .jpV0 _ | .rnd _ _ => false
  | .skp _ | .sknp _ | .ldVxDt _ | .ldVxK _ | .ldDtVx _ | .ldStVx _ | .addI _ | .ldF _ | .ldB _ => false
  | .ldMemVx _ | .ldVxMem _ => false

/-- `r` is a destination register the instruction names (R38); `LD Vx, [I]` names V0 to Vx. -/
def namesDest (i : Instr) (r : Reg) : Prop :=
  match i with
  | .ldImm x _ | .addImm x _ | .ldReg x _ | .orReg x _ | .andReg x _ | .xorReg x _ | .addReg x _ => r = x
  | .sub x _ | .shr x _ | .subn x _ | .shl x _ | .rnd x _ | .ldVxDt x => r = x
  | .ldVxMem x => r ≤ x
  | .cls | .ret | .jp _ | .call _ | .seImm _ _ | .sneImm _ _ | .seReg _ _ | .sneReg _ _ | .ldI _ | .jpV0 _ => False
  | .drw _ _ _ | .skp _ | .sknp _ | .ldVxK _ | .ldDtVx _ | .ldStVx _ | .addI _ | .ldF _ | .ldB _ | .ldMemVx _ => False

/-- The eight instructions that have a fault of their own (R185). -/
def canFault (i : Instr) : Bool :=
  match i with
  | .ret | .call _ | .drw _ _ _ | .skp _ | .sknp _ | .ldB _ | .ldMemVx _ | .ldVxMem _ => true
  | .cls | .jp _ | .seImm _ _ | .sneImm _ _ | .seReg _ _ | .ldImm _ _ | .addImm _ _ | .ldReg _ _ | .orReg _ _ => false
  | .andReg _ _ | .xorReg _ _ | .addReg _ _ | .sub _ _ | .shr _ _ | .subn _ _ | .shl _ _ | .sneReg _ _ => false
  | .ldI _ | .jpV0 _ | .rnd _ _ | .ldVxDt _ | .ldVxK _ | .ldDtVx _ | .ldStVx _ | .addI _ | .ldF _ => false

/-! ## The cells a sprite touches (R141), said without the model's draw -/

/-- The pixel at column `px` and row `py` lands on the cell `c` under the edge policy `p` (R141). -/
def LandsOn (p : Config.EdgePolicy) (px py : Nat) (c : Pixel) : Prop :=
  match p with
  | .clip => px ≤ 63 ∧ py ≤ 31 ∧ c.val = 64 * py + px
  | .wrap => c.val = 64 * (py % 32) + px % 64

/-- The sprite with these rows, its top-left pixel at column `vx` and row `vy`, touches the cell `c`: bit `7 - col` of some row is
set and its pixel lands there (R141, R142). -/
def Touches (p : Config.EdgePolicy) (vx vy : Nat) (rows : List Byte) (c : Pixel) : Prop :=
  ∃ row col b, rows[row]? = some b ∧ col < 8 ∧ b.getLsbD (7 - col) = true ∧ LandsOn p (vx + col) (vy + row) c

/-! ## What is left unchanged -/

/-- Every general register but those in `except` is unchanged. -/
def KeepsRegsBut (except : List Reg) (s t : State) : Prop := ∀ r : Reg, r ∉ except → t.reg r = s.reg r

/-- Every general register, VF among them, is unchanged. -/
def KeepsRegs (s t : State) : Prop := ∀ r : Reg, t.reg r = s.reg r

/-- I is unchanged. -/
def KeepsIndex (s t : State) : Prop := t.index = s.index

/-- The stack pointer and every stack slot are unchanged. -/
def KeepsStack (s t : State) : Prop := t.sp = s.sp ∧ ∀ k : Fin 16, t.slot k = s.slot k

/-- DT and ST are unchanged. -/
def KeepsTimers (s t : State) : Prop := t.dt = s.dt ∧ t.st = s.st

/-- Every display cell is unchanged. -/
def KeepsDisplay (s t : State) : Prop := ∀ c : Pixel, t.pixel c = s.pixel c

/-- Every key is unchanged. -/
def KeepsKeypad (s t : State) : Prop := ∀ k : Key, t.key k = s.key k

/-- `wait_key` is unchanged. -/
def KeepsWait (s t : State) : Prop := t.waitKey = s.waitKey

/-- Every byte of memory reads as before. -/
def KeepsMemory (s t : State) : Prop := ∀ a : Nat, t.memRead a = s.memRead a

/-- Every byte of memory outside the `n` bytes from address `a` reads as before. -/
def KeepsMemoryOutside (a n : Nat) (s t : State) : Prop := ∀ b : Nat, b < a ∨ a + n ≤ b → t.memRead b = s.memRead b

/-- No random byte has been drawn: the model's own counter is unchanged. -/
def KeepsDraws (s t : State) : Prop := t.draws = s.draws

/-- Everything but the general registers and pc is unchanged. -/
structure OnlyRegsAndPc (s t : State) : Prop where
  index   : KeepsIndex s t
  stack   : KeepsStack s t
  timers  : KeepsTimers s t
  display : KeepsDisplay s t
  keypad  : KeepsKeypad s t
  wait    : KeepsWait s t
  memory  : KeepsMemory s t
  draws   : KeepsDraws s t

/-- Everything but pc is unchanged. -/
structure OnlyPc (s t : State) : Prop where
  regs : KeepsRegs s t
  rest : OnlyRegsAndPc s t

end Sys2Proof.Machine
end

