-- ==== Sys2Proof/Certificates/Slice0/Obligations.lean ====
section
/-! DEFINITION. The statements about the model. A state `s` here is one whose pc is the address of the instruction (the `a` of rule
R9); `exec i s` runs the instruction `i` there. The names `OnlyPc`, `OnlyRegsAndPc`, `Keeps…` are in `Safety.lean`; each says
through the reads of the state what is left unchanged. -/

open Sys2Proof Sys2Proof.Machine

/-! ## Fetch, decode, step -/

/-- R93. A Running step whose two bytes at pc decode to an instruction is that instruction's `exec`; where they decode to
nothing it is the fault `InvalidOpcode` with the word and pc. The step adds nothing around `exec`. -/
def Obligations.RunningStepRunsTheDecodedInstruction : Prop :=
  ∀ (s : State) (hi lo : Byte), s.waitKey = none → s.memRead s.pc.toNat = some hi → s.memRead (s.pc.toNat + 1) = some lo →
    (∀ i, decodeWord (wordOfBytes hi lo) = .ok i → step s = exec i s) ∧
    (∀ e, decodeWord (wordOfBytes hi lo) = .error e → step s = .fault (.invalidOpcode (wordOfBytes hi lo) s.pc))

/-- R53. The fetched word is `memory[pc] * 256 + memory[pc + 1]`. -/
def Obligations.FetchIsBigEndian : Prop :=
  ∀ s : State, s.pc.toNat ≤ 0xFFE →
    ∃ op hi lo, s.fetchWord = some op ∧ s.memRead s.pc.toNat = some hi ∧ s.memRead (s.pc.toNat + 1) = some lo ∧
      op.toNat = hi.toNat * 256 + lo.toNat

/-- The fetch bound, the spec's decision D10 (20_memory.md section 4, log entry 2): a Running step faults with kind `fetch`
exactly where pc or pc + 1 is no valid address, and an AwaitingKey step never does. -/
def Obligations.FetchFaultsExactlyOutOfBounds : Prop :=
  ∀ (s : State) (p : Word), step s = .fault (.outOfBoundsAccess p .fetch) ↔
    s.waitKey = none ∧ 0xFFF ≤ s.pc.toNat ∧ p = s.pc

/-- A sanity statement: eleven words written out from the table of rule R77, at least one of each format, decode to the instruction
they stand for, and 0x0000, which no row of the table selects, is rejected. A123 rests on the parameter `HAS_A_B` (D8, log entry 4);
the numbers in 5AB0, 8127, 812E and F165 rest on the spec's decision D7, the rejection on D9 (log entry 2). -/
def Obligations.WrittenOutWordsDecode : Prop :=
  decodeWord 0x00E0 = .ok .cls ∧ decodeWord 0x00EE = .ok .ret ∧ decodeWord 0x1ABC = .ok (.jp 0xABC) ∧
  decodeWord 0x3AFF = .ok (.seImm 10 0xFF) ∧ decodeWord 0x5AB0 = .ok (.seReg 10 11) ∧
  decodeWord 0x8127 = .ok (.subn 1 2) ∧ decodeWord 0x812E = .ok (.shl 1 2) ∧ decodeWord 0xA123 = .ok (.ldI 0x123) ∧
  decodeWord 0xD125 = .ok (.drw 1 2 5) ∧ decodeWord 0xE1A1 = .ok (.sknp 1) ∧ decodeWord 0xF165 = .ok (.ldVxMem 1) ∧
  decodeWord 0x0000 = .error (.invalidWord 0x0000)

/-- Decoding an encoded instruction gives it back, for every instruction of the machine and every operand, with either value of
the parameter `HAS_A_B`; from words and from bytes. -/
def Obligations.DecodeOfEncodeIsIdentity : Prop :=
  (∀ (ab : Bool) (i : Instr), i.wellFormedWith ab = true → decodeWordWith ab (encode i) = .ok i) ∧
  (∀ (i : Instr) (rest : List Byte), i.wellFormed = true → decodeBytes (encodeBytes i ++ rest) = .ok (i, rest))

/-- The other direction: a word that decodes is the encoding of what it decodes to, and that is an instruction of the machine. -/
def Obligations.EncodeOfDecodeIsIdentity : Prop :=
  ∀ (ab : Bool) (op : Word) (i : Instr), decodeWordWith ab op = .ok i → encode i = op ∧ i.wellFormedWith ab = true

/-- The decoder and the table of rule R77 agree on every word: a word decodes exactly when some row selects it, no two rows select
the same word, and what a word decodes to is the instruction of the row that selects it. -/
def Obligations.DecodeAgreesWithTheTable : Prop :=
  ∀ op : Word,
    ((∃ i, decodeWord op = .ok i) ↔ ∃ r ∈ tableRows, r.selects op) ∧
    (∀ r ∈ tableRows, ∀ q ∈ tableRows, r.selects op → q.selects op → r = q) ∧
    (∀ i, decodeWord op = .ok i → i.row.selects op)

/-- The invalid words, family by family as the table of 30_encoding.md section 4 lists them (exact matching of fixed bits is the
spec's decision D9, log entry 2). -/
def Obligations.InvalidWordsAreThoseListed : Prop :=
  ∀ op : Word, decodeWord op = .error (.invalidWord op) ↔
    (op.toNat / 4096 = 0x0 ∧ op.toNat ≠ 0x00E0 ∧ op.toNat ≠ 0x00EE) ∨
    (op.toNat / 4096 = 0x5 ∧ op.toNat % 16 ≠ 0) ∨
    (op.toNat / 4096 = 0x8 ∧ (8 ≤ op.toNat % 16 ∧ op.toNat % 16 ≤ 0xD ∨ op.toNat % 16 = 0xF)) ∨
    (op.toNat / 4096 = 0x9 ∧ op.toNat % 16 ≠ 0) ∨
    (op.toNat / 4096 = 0xE ∧ op.toNat % 256 ∉ [0x9E, 0xA1]) ∨
    (op.toNat / 4096 = 0xF ∧ op.toNat % 256 ∉ [0x07, 0x0A, 0x15, 0x18, 0x1E, 0x29, 0x33, 0x55, 0x65])

/-! ## Control flow -/

/-- `RET` with a call outstanding: the popped value goes to pc unchanged (the spec's decision D2, log entry 2), sp goes down by
one, and every slot, the popped one too, keeps its value. -/
def Obligations.ReturnPopsTheReturnAddress : Prop :=
  ∀ s : State, 0 < s.sp.val →
    ∃ t, exec .ret s = .next t ∧ t.sp.val = s.sp.val - 1 ∧ (∀ k : Fin 16, k.val = s.sp.val - 1 → t.pc = s.slot k) ∧
      (∀ k : Fin 16, t.slot k = s.slot k) ∧ KeepsRegs s t ∧ KeepsIndex s t ∧ KeepsTimers s t ∧ KeepsDisplay s t ∧
      KeepsKeypad s t ∧ KeepsWait s t ∧ KeepsMemory s t ∧ KeepsDraws s t

/-- `StackUnderflow` is raised by `RET` executed with sp = 0 and by nothing else, whether an instruction or a whole step is
asked; it records pc, and the state after it is the state before it. The recorded pc is the spec's decision D23 and that pc has not advanced is
D3 (log entry 2); the last clause holds by the definition of `stateAfter`, since a fault carries no state (log entry 10). -/
def Obligations.StackUnderflowExactlyOnEmptyReturn : Prop :=
  (∀ (i : Instr) (s : State) (p : Word), exec i s = .fault (.stackUnderflow p) ↔ i = .ret ∧ s.sp = 0 ∧ p = s.pc) ∧
  (∀ (s : State) (p : Word), step s = .fault (.stackUnderflow p) ↔
    s.waitKey = none ∧ (∃ op, s.fetchWord = some op ∧ decodeWord op = .ok .ret) ∧ s.sp = 0 ∧ p = s.pc) ∧
  (∀ (s : State) (p : Word), step s = .fault (.stackUnderflow p) → stateAfter s (step s) = s)

/-- `StackOverflow` is raised by `CALL` executed with sp = 16 and by nothing else, whether an instruction or a whole step is
asked; it records pc, and the state after it, every stack slot too, is the state before it. The recorded pc is the spec's decision D23 and that
pc has not advanced is D3 (log entry 2); the last clause holds by the definition of `stateAfter`, since a fault carries no state (log
entry 10). -/
def Obligations.StackOverflowExactlyOnSeventeenthCall : Prop :=
  (∀ (i : Instr) (s : State) (p : Word),
    exec i s = .fault (.stackOverflow p) ↔ (∃ nnn, i = .call nnn) ∧ s.sp = 16 ∧ p = s.pc) ∧
  (∀ (s : State) (p : Word), step s = .fault (.stackOverflow p) ↔
    s.waitKey = none ∧ (∃ op nnn, s.fetchWord = some op ∧ decodeWord op = .ok (.call nnn)) ∧ s.sp = 16 ∧ p = s.pc) ∧
  (∀ (s : State) (p : Word), step s = .fault (.stackOverflow p) → stateAfter s (step s) = s)

/-- `JP nnn`, word 1nnn: pc := nnn, nothing else, for every nnn; a jump to itself leaves the whole state exactly as it was (that every
later step does the same is `JumpToItselfRests`), and after a jump to 0xFFF the next step faults at the fetch, which is the spec's
decision D10 (log entry 2). -/
def Obligations.JumpSetsPc : Prop :=
  ∀ (nnn : Addr) (s : State), decodeWord (BitVec.ofNat 16 (0x1000 + nnn.toNat)) = .ok (.jp nnn) ∧
    ∃ t, exec (.jp nnn) s = .next t ∧ t.pc.toNat = nnn.toNat ∧ OnlyPc s t ∧ (nnn.toNat = s.pc.toNat → t = s) ∧
      (s.waitKey = none → nnn = 0xFFF → step t = .fault (.outOfBoundsAccess 0xFFF .fetch))

/-- `CALL nnn` with fewer than sixteen calls outstanding: the address of the next instruction goes to slot sp (the spec's decision
D2, log entry 2), sp goes up by one, pc := nnn. -/
def Obligations.CallPushesTheReturnAddress : Prop :=
  ∀ (nnn : Addr) (s : State), s.sp.val < 16 →
    ∃ t, exec (.call nnn) s = .next t ∧ t.pc.toNat = nnn.toNat ∧ t.sp.val = s.sp.val + 1 ∧
      (∀ k : Fin 16, t.slot k = if k.val = s.sp.val then s.pc + 2 else s.slot k) ∧ KeepsRegs s t ∧ KeepsIndex s t ∧
      KeepsTimers s t ∧ KeepsDisplay s t ∧ KeepsKeypad s t ∧ KeepsWait s t ∧ KeepsMemory s t ∧ KeepsDraws s t

/-- A call whose target holds `RET` (00 EE) comes back, in two steps, to the instruction after it, with sp as before the call
(decision D2, log entry 2). -/
def Obligations.CallThenReturnComesBack : Prop :=
  ∀ (s : State) (op : Word) (nnn : Addr), s.waitKey = none → s.fetchWord = some op → decodeWord op = .ok (.call nnn) →
    s.sp.val < 16 → s.memRead nnn.toNat = some 0x00 → s.memRead (nnn.toNat + 1) = some 0xEE →
    ∃ t u, step s = .next t ∧ t.pc.toNat = nnn.toNat ∧ step t = .next u ∧ u.pc = s.pc + 2 ∧ u.sp = s.sp ∧
      (∀ k : Fin 16, k.val < s.sp.val → u.slot k = s.slot k) ∧ KeepsRegs s u ∧ KeepsIndex s u ∧ KeepsTimers s u ∧
      KeepsDisplay s u ∧ KeepsKeypad s u ∧ KeepsWait s u ∧ KeepsMemory s u ∧ KeepsDraws s u

/-- R104. `SE Vx, kk` (3xkk): pc goes 4 on if Vx = kk, else 2 on; nothing else. -/
def Obligations.SkipIfEqualImmediate : Prop :=
  ∀ (x : Reg) (kk : Byte) (s : State), decodeWord (BitVec.ofNat 16 (0x3000 + x.val * 256 + kk.toNat)) = .ok (.seImm x kk) ∧
    ∃ t, exec (.seImm x kk) s = .next t ∧ OnlyPc s t ∧
      (s.reg x = kk → t.pc = s.pc + 4) ∧ (s.reg x ≠ kk → t.pc = s.pc + 2)

/-- `SNE Vx, kk` (4xkk): pc goes 4 on if Vx is not kk, else 2 on; nothing else. That 4xkk is the not-equal form is the spec's own
inference (30_encoding.md section 3, log entry 2). -/
def Obligations.SkipIfNotEqualImmediate : Prop :=
  ∀ (x : Reg) (kk : Byte) (s : State), decodeWord (BitVec.ofNat 16 (0x4000 + x.val * 256 + kk.toNat)) = .ok (.sneImm x kk) ∧
    ∃ t, exec (.sneImm x kk) s = .next t ∧ OnlyPc s t ∧
      (s.reg x ≠ kk → t.pc = s.pc + 4) ∧ (s.reg x = kk → t.pc = s.pc + 2)

/-- `SE Vx, Vy` and `SNE Vx, Vy`: pc goes 4 on if the registers are, or are not, equal, else 2 on; nothing else. Which of the two
patterns is which is general knowledge (30_encoding.md section 3, log entry 2). -/
def Obligations.SkipOnRegister : Prop :=
  ∀ (x y : Reg) (s : State),
    (∃ t, exec (.seReg x y) s = .next t ∧ OnlyPc s t ∧
      (s.reg x = s.reg y → t.pc = s.pc + 4) ∧ (s.reg x ≠ s.reg y → t.pc = s.pc + 2)) ∧
    (∃ t, exec (.sneReg x y) s = .next t ∧ OnlyPc s t ∧
      (s.reg x ≠ s.reg y → t.pc = s.pc + 4) ∧ (s.reg x = s.reg y → t.pc = s.pc + 2))

/-- `JP V0, nnn`: pc := nnn + V0, nothing else. The instruction is general knowledge (decision D8, log entry 4). -/
def Obligations.JumpPlusV0 : Prop :=
  ∀ (nnn : Addr) (s : State),
    ∃ t, exec (.jpV0 nnn) s = .next t ∧ t.pc.toNat = nnn.toNat + (s.reg 0).toNat ∧ OnlyPc s t

/-- A jump to its own address is the resting place of a program: every number of steps returns `Ok` and leaves the state exactly as
it was (40_step_cycle.md section 5). -/
def Obligations.JumpToItselfRests : Prop :=
  ∀ (s : State) (op : Word) (nnn : Addr), s.waitKey = none → s.fetchWord = some op → decodeWord op = .ok (.jp nnn) →
    nnn.toNat = s.pc.toNat → ∀ n : Nat, RunsOk n s ∧ Sys2Proof.core.run n s = .next s

/-! ## Load immediate, ALU, random -/

/-- R121. `LD Vx, kk` (6xkk): Vx := kk, pc goes 2 on, nothing else. -/
def Obligations.LoadImmediate : Prop :=
  ∀ (x : Reg) (kk : Byte) (s : State), decodeWord (BitVec.ofNat 16 (0x6000 + x.val * 256 + kk.toNat)) = .ok (.ldImm x kk) ∧
    ∃ t, exec (.ldImm x kk) s = .next t ∧ t.pc = s.pc + 2 ∧ t.reg x = kk ∧ KeepsRegsBut [x] s t ∧ OnlyRegsAndPc s t

/-- `ADD Vx, kk`: Vx := Vx + kk modulo 256, pc goes 2 on, nothing else; that VF is not written is the spec's decision D19 (log
entry 2). -/
def Obligations.AddImmediateWraps : Prop :=
  ∀ (x : Reg) (kk : Byte) (s : State),
    ∃ t, exec (.addImm x kk) s = .next t ∧ t.pc = s.pc + 2 ∧ (t.reg x).toNat = ((s.reg x).toNat + kk.toNat) % 256 ∧
      KeepsRegsBut [x] s t ∧ OnlyRegsAndPc s t

/-- `LD Vx, Vy` (8xy0): Vx := Vy, pc goes 2 on, nothing else. The sub-opcode number is the spec's own inference (30_encoding.md
section 3, log entry 2). -/
def Obligations.AssignRegister : Prop :=
  ∀ (x y : Reg) (s : State), decodeWord (BitVec.ofNat 16 (0x8000 + x.val * 256 + y.val * 16)) = .ok (.ldReg x y) ∧
    ∃ t, exec (.ldReg x y) s = .next t ∧ t.pc = s.pc + 2 ∧ t.reg x = s.reg y ∧ KeepsRegsBut [x] s t ∧ OnlyRegsAndPc s t

/-- `OR`, `AND`, `XOR`: every bit of Vx becomes the OR, AND, XOR of the two registers' bits, pc goes 2 on, nothing else; that VF is
not written is the spec's decision D19 (log entry 2). -/
def Obligations.BitwiseOperations : Prop :=
  ∀ (x y : Reg) (s : State),
    (∃ t, exec (.orReg x y) s = .next t ∧ t.pc = s.pc + 2 ∧ KeepsRegsBut [x] s t ∧ OnlyRegsAndPc s t ∧
      ∀ k, (t.reg x).getLsbD k = ((s.reg x).getLsbD k || (s.reg y).getLsbD k)) ∧
    (∃ t, exec (.andReg x y) s = .next t ∧ t.pc = s.pc + 2 ∧ KeepsRegsBut [x] s t ∧ OnlyRegsAndPc s t ∧
      ∀ k, (t.reg x).getLsbD k = ((s.reg x).getLsbD k && (s.reg y).getLsbD k)) ∧
    (∃ t, exec (.xorReg x y) s = .next t ∧ t.pc = s.pc + 2 ∧ KeepsRegsBut [x] s t ∧ OnlyRegsAndPc s t ∧
      ∀ k, (t.reg x).getLsbD k = ((s.reg x).getLsbD k ^^ (s.reg y).getLsbD k))

/-- `ADD Vx, Vy` (8xy4): VF is 1 exactly when the unsigned sum exceeds 255, for every x, 15 too; the result, where x is not 15, is the
sum modulo 256; nothing else but pc. That the flag is written last, so that with x = 15 VF holds the flag and the sum is lost, is the
spec's decision D4 (90_conflicts.md C11, log entry 2). -/
def Obligations.AddSetsCarry : Prop :=
  ∀ (x y : Reg) (s : State), decodeWord (BitVec.ofNat 16 (0x8004 + x.val * 256 + y.val * 16)) = .ok (.addReg x y) ∧
    ∃ t, exec (.addReg x y) s = .next t ∧ t.pc = s.pc + 2 ∧
      (t.reg 15).toNat = (if 255 < (s.reg x).toNat + (s.reg y).toNat then 1 else 0) ∧
      (x ≠ 15 → (t.reg x).toNat = ((s.reg x).toNat + (s.reg y).toNat) % 256) ∧ KeepsRegsBut [x, 15] s t ∧ OnlyRegsAndPc s t

/-- `SUB Vx, Vy` (8xy5) and `SUBN Vx, Vy` (8xy7): VF is 1 exactly when the minuend is at least the subtrahend, for every x, 15 too;
the result, where x is not 15, is the difference modulo 256; nothing else but pc. The sub-opcode numbers are the spec's own
inference (30_encoding.md section 3, log entry 2). -/
def Obligations.SubtractSetsNotBorrow : Prop :=
  ∀ (x y : Reg) (s : State),
    decodeWord (BitVec.ofNat 16 (0x8005 + x.val * 256 + y.val * 16)) = .ok (.sub x y) ∧
    decodeWord (BitVec.ofNat 16 (0x8007 + x.val * 256 + y.val * 16)) = .ok (.subn x y) ∧
    (∃ t, exec (.sub x y) s = .next t ∧ t.pc = s.pc + 2 ∧
      (t.reg 15).toNat = (if (s.reg y).toNat ≤ (s.reg x).toNat then 1 else 0) ∧
      (x ≠ 15 → (t.reg x).toNat = ((s.reg x).toNat + 256 - (s.reg y).toNat) % 256) ∧
      KeepsRegsBut [x, 15] s t ∧ OnlyRegsAndPc s t) ∧
    (∃ t, exec (.subn x y) s = .next t ∧ t.pc = s.pc + 2 ∧
      (t.reg 15).toNat = (if (s.reg x).toNat ≤ (s.reg y).toNat then 1 else 0) ∧
      (x ≠ 15 → (t.reg x).toNat = ((s.reg y).toNat + 256 - (s.reg x).toNat) % 256) ∧
      KeepsRegsBut [x, 15] s t ∧ OnlyRegsAndPc s t)

/-- `SHR Vx` (8xy6): VF is the old bit 0, for every x, 15 too; the result, where x is not 15, is Vx div 2; `y` plays no part; nothing
else but pc. That with x = 15 VF holds the flag is the spec's decision D4 (log entry 2). -/
def Obligations.ShiftRightSetsDroppedBit : Prop :=
  ∀ (x y : Reg) (s : State), decodeWord (BitVec.ofNat 16 (0x8006 + x.val * 256 + y.val * 16)) = .ok (.shr x y) ∧
    ∃ t, exec (.shr x y) s = .next t ∧ t.pc = s.pc + 2 ∧ (t.reg 15).toNat = (s.reg x).toNat % 2 ∧
      (x ≠ 15 → (t.reg x).toNat = (s.reg x).toNat / 2) ∧ KeepsRegsBut [x, 15] s t ∧ OnlyRegsAndPc s t ∧
      ∀ y', exec (.shr x y') s = .next t

/-- `SHL Vx`: VF is the old bit 7, for every x, 15 too; the result, where x is not 15, is 2 * Vx modulo 256; `y` plays no part (the
spec's decision D20, log entry 2); nothing else but pc. -/
def Obligations.ShiftLeftSetsDroppedBit : Prop :=
  ∀ (x y : Reg) (s : State),
    ∃ t, exec (.shl x y) s = .next t ∧ t.pc = s.pc + 2 ∧ (t.reg 15).toNat = (s.reg x).toNat / 128 ∧
      (x ≠ 15 → (t.reg x).toNat = 2 * (s.reg x).toNat % 256) ∧ KeepsRegsBut [x, 15] s t ∧ OnlyRegsAndPc s t ∧
      ∀ y', exec (.shl x y') s = .next t

/-- `RND Vx, kk`: Vx := the draw AND kk, pc goes 2 on, nothing else. The draw is a free value numbered by the model's own counter,
which goes up by one (log entry 1): the statement holds for every value of the counter. -/
def Obligations.RandomIsMaskedDraw : Prop :=
  ∀ (x : Reg) (kk : Byte) (s : State),
    ∃ t, exec (.rnd x kk) s = .next t ∧ t.pc = s.pc + 2 ∧
      (∀ k, (t.reg x).getLsbD k = ((Config.freeRandom s.draws).getLsbD k && kk.getLsbD k)) ∧ KeepsRegsBut [x] s t ∧
      KeepsIndex s t ∧ KeepsStack s t ∧ KeepsTimers s t ∧ KeepsDisplay s t ∧ KeepsKeypad s t ∧ KeepsWait s t ∧
      KeepsMemory s t ∧ t.draws = s.draws + 1

/-- The identities of 42_load_alu_random.md section 5, for x other than 15 (where the result is not lost): `SUB` result + Vy is Vx
modulo 256, `ADD` result - Vy is Vx modulo 256, `SHR` result * 2 + flag is Vx, `SHL` result + 256 * flag is 2 * Vx, and `SUBN x,y`
gives the result and the flag of `SUB` with the operands exchanged. -/
def Obligations.ArithmeticIdentities : Prop :=
  ∀ (x y : Reg) (s t : State), x ≠ 15 →
    (exec (.sub x y) s = .next t → ((t.reg x).toNat + (s.reg y).toNat) % 256 = (s.reg x).toNat) ∧
    (exec (.addReg x y) s = .next t → ((t.reg x).toNat + 256 - (s.reg y).toNat) % 256 = (s.reg x).toNat) ∧
    (exec (.shr x y) s = .next t → (t.reg x).toNat * 2 + (t.reg 15).toNat = (s.reg x).toNat) ∧
    (exec (.shl x y) s = .next t → (t.reg x).toNat + 256 * (t.reg 15).toNat = 2 * (s.reg x).toNat) ∧
    (y ≠ 15 → exec (.subn x y) s = .next t →
      ∃ u, exec (.sub y x) s = .next u ∧ u.reg y = t.reg x ∧ u.reg 15 = t.reg 15)

/-- A register changes only where the instruction names it as destination, or as VF where the instruction is one of the six that
write a flag, and then VF ends as 0 or 1 (10_state.md sections 3 and 11; decisions D4 and D19, log entry 2). -/
def Obligations.RegistersChangeOnlyAsNamed : Prop :=
  ∀ (i : Instr) (s t : State), exec i s = .next t →
    (∀ r : Reg, t.reg r ≠ s.reg r → namesDest i r ∨ (r = 15 ∧ writesFlag i = true)) ∧
    (writesFlag i = true → t.reg 15 = 0 ∨ t.reg 15 = 1)

/-! ## Display -/

/-- R140. `CLS` (00E0): all 2048 cells become 0, from any display; pc goes 2 on; nothing else, VF not either. -/
def Obligations.ClearZeroesEveryCell : Prop :=
  decodeWord 0x00E0 = .ok .cls ∧
  ∀ s : State, ∃ t, exec .cls s = .next t ∧ t.pc = s.pc + 2 ∧ (∀ c : Pixel, t.pixel c = false) ∧ KeepsRegs s t ∧
    KeepsIndex s t ∧ KeepsStack s t ∧ KeepsTimers s t ∧ KeepsKeypad s t ∧ KeepsWait s t ∧ KeepsMemory s t ∧ KeepsDraws s t

/-- `DRW Vx, Vy, n` with every sprite byte in memory (or n = 0): the cells the sprite touches are complemented, every other cell
stays, and VF is 1 exactly when a touched cell was lit. That pixels beyond the edge are dropped is the parameter value `clip`
(decision D5, log entry 3); that bit 7 is the left pixel is decision D6, that VF is written last is decision D4 (log entry 2). -/
def Obligations.DrawComplementsTheTouchedCells : Prop :=
  ∀ (x y : Reg) (n : Rows) (s : State), (n.val = 0 ∨ s.index.toNat + (n.val - 1) ≤ 0xFFF) →
    ∃ rows t, exec (.drw x y n) s = .next t ∧ rows.length = n.val ∧
      (∀ k, k < n.val → rows[k]? = s.memRead (s.index.toNat + k)) ∧
      (∀ c, Touches .clip (s.reg x).toNat (s.reg y).toNat rows c → t.pixel c = !s.pixel c) ∧
      (∀ c, ¬ Touches .clip (s.reg x).toNat (s.reg y).toNat rows c → t.pixel c = s.pixel c) ∧
      ((∃ c, Touches .clip (s.reg x).toNat (s.reg y).toNat rows c ∧ s.pixel c = true) → t.reg 15 = 1) ∧
      ((∀ c, Touches .clip (s.reg x).toNat (s.reg y).toNat rows c → s.pixel c = false) → t.reg 15 = 0) ∧
      t.pc = s.pc + 2 ∧ KeepsRegsBut [15] s t ∧ KeepsIndex s t ∧ KeepsStack s t ∧ KeepsTimers s t ∧ KeepsKeypad s t ∧
      KeepsWait s t ∧ KeepsMemory s t ∧ KeepsDraws s t

/-- The same of the draw under either edge policy, for the value `wrap` too (43_display.md section 3, log entry 3). -/
def Obligations.DrawUnderEitherEdgePolicy : Prop :=
  ∀ (p : Config.EdgePolicy) (x y : Reg) (rows : List Byte) (s : State), rows.length ≤ 15 →
    (∀ c, (drawSprite p x y rows s).pixel c = true ↔
      (Touches p (s.reg x).toNat (s.reg y).toNat rows c ↔ s.pixel c = false)) ∧
    ((drawSprite p x y rows s).reg 15 = 1 ↔
      ∃ c, Touches p (s.reg x).toNat (s.reg y).toNat rows c ∧ s.pixel c = true)

/-- The two edge policies agree on a sprite that lies inside the display (43_display.md section 4). -/
def Obligations.EdgePoliciesAgreeInside : Prop :=
  ∀ (x y : Reg) (rows : List Byte) (s : State), (s.reg x).toNat ≤ 56 → (s.reg y).toNat + rows.length ≤ 32 →
    drawSprite .clip x y rows s = drawSprite .wrap x y rows s

/-- Drawing the same sprite twice at the same coordinates restores every cell, always; the second draw reports a collision exactly
when the first one lit a cell (43_display.md section 4, 90_conflicts.md C10). The second state `t'` is any state with the display,
memory and I the first draw left and with the old values of Vx and Vy, so that x = 15 and y = 15 are covered. -/
def Obligations.DrawTwiceRestoresTheDisplay : Prop :=
  ∀ (x y : Reg) (n : Rows) (s t t' : State), exec (.drw x y n) s = .next t → KeepsDisplay t t' → KeepsMemory t t' →
    KeepsIndex t t' → t'.reg x = s.reg x → t'.reg y = s.reg y →
    ∃ u, exec (.drw x y n) t' = .next u ∧ KeepsDisplay s u ∧
      ((∃ c, s.pixel c = false ∧ t.pixel c = true) → u.reg 15 = 1) ∧
      ((∀ c, t.pixel c = true → s.pixel c = true) → u.reg 15 = 0)

/-! ## Keypad -/

/-- `SKP Vx` and `SKNP Vx`: with the value of Vx at most 15, pc goes 4 on if that key is, or is not, pressed, else 2 on; nothing
else. With a value above 15 both fault with kind `keypad` (the spec's decision D12, log entry 2). -/
def Obligations.SkipOnKey : Prop :=
  ∀ (x : Reg) (s : State),
    (∀ k : Key, (s.reg x).toNat = k.val →
      (∃ t, exec (.skp x) s = .next t ∧ OnlyPc s t ∧ t.pc = if s.key k then s.pc + 4 else s.pc + 2) ∧
      (∃ t, exec (.sknp x) s = .next t ∧ OnlyPc s t ∧ t.pc = if s.key k then s.pc + 2 else s.pc + 4)) ∧
    (15 < (s.reg x).toNat → exec (.skp x) s = .fault (.outOfBoundsAccess s.pc .keypad) ∧
      exec (.sknp x) s = .fault (.outOfBoundsAccess s.pc .keypad))

/-- `LD Vx, K`: the machine enters AwaitingKey for Vx and pc goes 2 on; Vx is not written and the keypad plays no part, whether a key
is down or not (the spec's decision D14, log entry 2); nothing else. -/
def Obligations.WaitEntersAwaitingKey : Prop :=
  ∀ (x : Reg) (s : State),
    ∃ t, exec (.ldVxK x) s = .next t ∧ t.waitKey = some x ∧ t.pc = s.pc + 2 ∧ KeepsRegs s t ∧ KeepsIndex s t ∧ KeepsStack s t ∧
      KeepsTimers s t ∧ KeepsDisplay s t ∧ KeepsKeypad s t ∧ KeepsMemory s t ∧ KeepsDraws s t

/-- A step in AwaitingKey never faults and never moves pc. With no key pressed the whole state stays; else the least pressed key goes
to the waiting register and the machine is Running; nothing else (40_step_cycle.md section 2, decision D14, log entry 2). -/
def Obligations.AwaitingStepPollsTheKeypad : Prop :=
  ∀ (s : State) (r : Reg), s.waitKey = some r →
    ((∀ k, s.key k = false) → step s = .next s) ∧
    (∀ k : Key, s.key k = true → (∀ j, j < k → s.key j = false) →
      ∃ t, step s = .next t ∧ (t.reg r).toNat = k.val ∧ KeepsRegsBut [r] s t ∧ t.waitKey = none ∧ t.pc = s.pc ∧
        KeepsIndex s t ∧ KeepsStack s t ∧ KeepsTimers s t ∧ KeepsDisplay s t ∧ KeepsKeypad s t ∧ KeepsMemory s t ∧
        KeepsDraws s t)

/-- The state machine as a whole (44_keypad.md section 3): AwaitingKey is entered only by a Running step that fetches an `LD Vx, K`,
for that x, and left only by a step that finds a key pressed. -/
def Obligations.WaitStateTransitions : Prop :=
  ∀ s t : State, step s = .next t →
    (s.waitKey = none → ∀ x, t.waitKey = some x → ∃ op, s.fetchWord = some op ∧ decodeWord op = .ok (.ldVxK x)) ∧
    (∀ r, s.waitKey = some r → (t.waitKey = none ∧ ∃ k, s.key k = true) ∨ (t = s ∧ ∀ k, s.key k = false))

/-! ## Index, timers, memory -/

/-- `LD I, nnn`, `ADD I, Vx`, `LD F, Vx`: I becomes nnn, I + Vx modulo 65536, 5 * Vx; pc goes 2 on; nothing else, VF not either. The
first is general knowledge (decision D8, log entry 4), the second rests on D17 and D19, the third on D13 (log entry 2). -/
def Obligations.IndexRegisterWrites : Prop :=
  ∀ (nnn : Addr) (x : Reg) (s : State),
    (∃ t, exec (.ldI nnn) s = .next t ∧ t.index.toNat = nnn.toNat ∧ t.pc = s.pc + 2 ∧ KeepsRegs s t ∧ KeepsStack s t ∧
      KeepsTimers s t ∧ KeepsDisplay s t ∧ KeepsKeypad s t ∧ KeepsWait s t ∧ KeepsMemory s t ∧ KeepsDraws s t) ∧
    (∃ t, exec (.addI x) s = .next t ∧ t.index.toNat = (s.index.toNat + (s.reg x).toNat) % 65536 ∧ t.pc = s.pc + 2 ∧
      KeepsRegs s t ∧ KeepsStack s t ∧ KeepsTimers s t ∧ KeepsDisplay s t ∧ KeepsKeypad s t ∧ KeepsWait s t ∧
      KeepsMemory s t ∧ KeepsDraws s t) ∧
    (∃ t, exec (.ldF x) s = .next t ∧ t.index.toNat = 5 * (s.reg x).toNat ∧ t.pc = s.pc + 2 ∧ KeepsRegs s t ∧
      KeepsStack s t ∧ KeepsTimers s t ∧ KeepsDisplay s t ∧ KeepsKeypad s t ∧ KeepsWait s t ∧ KeepsMemory s t ∧
      KeepsDraws s t)

/-- `LD Vx, DT` (Fx07): Vx := DT. `LD DT, Vx` (Fx15): DT := Vx. `LD ST, Vx` (Fx18): ST := Vx. In each pc goes 2 on and nothing else
changes. The low bytes are general knowledge (30_encoding.md section 3, log entry 2). -/
def Obligations.TimerReadAndWrite : Prop :=
  ∀ (x : Reg) (s : State),
    decodeWord (BitVec.ofNat 16 (0xF007 + x.val * 256)) = .ok (.ldVxDt x) ∧
    decodeWord (BitVec.ofNat 16 (0xF015 + x.val * 256)) = .ok (.ldDtVx x) ∧
    decodeWord (BitVec.ofNat 16 (0xF018 + x.val * 256)) = .ok (.ldStVx x) ∧
    (∃ t, exec (.ldVxDt x) s = .next t ∧ t.reg x = s.dt ∧ t.pc = s.pc + 2 ∧ KeepsRegsBut [x] s t ∧ OnlyRegsAndPc s t) ∧
    (∃ t, exec (.ldDtVx x) s = .next t ∧ t.dt = s.reg x ∧ t.st = s.st ∧ t.pc = s.pc + 2 ∧ KeepsRegs s t ∧ KeepsIndex s t ∧
      KeepsStack s t ∧ KeepsDisplay s t ∧ KeepsKeypad s t ∧ KeepsWait s t ∧ KeepsMemory s t ∧ KeepsDraws s t) ∧
    (∃ t, exec (.ldStVx x) s = .next t ∧ t.st = s.reg x ∧ t.dt = s.dt ∧ t.pc = s.pc + 2 ∧ KeepsRegs s t ∧ KeepsIndex s t ∧
      KeepsStack s t ∧ KeepsDisplay s t ∧ KeepsKeypad s t ∧ KeepsWait s t ∧ KeepsMemory s t ∧ KeepsDraws s t)

/-- `LD B, Vx` with I to I + 2 in memory: the hundreds, tens and ones of Vx at I, I + 1 and I + 2 (the order is general knowledge,
decision D27, log entry 2); every other byte reads as before; pc goes 2 on; nothing else, I not either (decision D18, log entry 2). -/
def Obligations.StoreDecimalDigits : Prop :=
  ∀ (x : Reg) (s : State), s.index.toNat + 2 ≤ 0xFFF →
    ∃ t, exec (.ldB x) s = .next t ∧ t.pc = s.pc + 2 ∧
      t.memRead s.index.toNat = some (BitVec.ofNat 8 ((s.reg x).toNat / 100)) ∧
      t.memRead (s.index.toNat + 1) = some (BitVec.ofNat 8 ((s.reg x).toNat / 10 % 10)) ∧
      t.memRead (s.index.toNat + 2) = some (BitVec.ofNat 8 ((s.reg x).toNat % 10)) ∧
      KeepsMemoryOutside s.index.toNat 3 s t ∧ KeepsRegs s t ∧ KeepsIndex s t ∧ KeepsStack s t ∧ KeepsTimers s t ∧
      KeepsDisplay s t ∧ KeepsKeypad s t ∧ KeepsWait s t ∧ KeepsDraws s t

/-- `LD [I], Vx` with I to I + x in memory: V0 to Vx at I to I + x; every other byte reads as before; pc goes 2 on; nothing else, I
not either (decision D18; that 55 is the store is general knowledge; log entry 2). -/
def Obligations.StoreRegisters : Prop :=
  ∀ (x : Reg) (s : State), s.index.toNat + x.val ≤ 0xFFF →
    ∃ t, exec (.ldMemVx x) s = .next t ∧ t.pc = s.pc + 2 ∧
      (∀ r : Reg, r ≤ x → t.memRead (s.index.toNat + r.val) = some (s.reg r)) ∧
      KeepsMemoryOutside s.index.toNat (x.val + 1) s t ∧ KeepsRegs s t ∧ KeepsIndex s t ∧ KeepsStack s t ∧ KeepsTimers s t ∧
      KeepsDisplay s t ∧ KeepsKeypad s t ∧ KeepsWait s t ∧ KeepsDraws s t

/-- `LD Vx, [I]` (Fx65) with I to I + x in memory: V0 to Vx become the bytes at I to I + x; the registers above, I, memory and
everything else but pc stay. Where I + x is above 0xFFF it faults and nothing is written. The low byte is general knowledge
(30_encoding.md section 3), that I stays is decision D18 (log entry 2). -/
def Obligations.LoadRegisters : Prop :=
  ∀ (x : Reg) (s : State), decodeWord (BitVec.ofNat 16 (0xF065 + x.val * 256)) = .ok (.ldVxMem x) ∧
    (s.index.toNat + x.val ≤ 0xFFF → ∃ t, exec (.ldVxMem x) s = .next t ∧ t.pc = s.pc + 2 ∧
      (∀ r : Reg, r ≤ x → some (t.reg r) = s.memRead (s.index.toNat + r.val)) ∧
      (∀ r : Reg, x < r → t.reg r = s.reg r) ∧ OnlyRegsAndPc s t) ∧
    (0xFFF < s.index.toNat + x.val → exec (.ldVxMem x) s = .fault (.outOfBoundsAccess s.pc .data))

/-- Where an instruction raises `OutOfBoundsAccess`, and with which kind (60_exceptions.md section 1; decisions D11 and D12, log entry
2): exactly where a byte it would access lies above 0xFFF, or the key number is above 15. -/
def Obligations.OutOfBoundsExactly : Prop :=
  ∀ (i : Instr) (s : State) (p : Word) (k : AccessKind), exec i s = .fault (.outOfBoundsAccess p k) ↔
    p = s.pc ∧
    ((k = .data ∧
        ((∃ x y n, i = .drw x y n ∧ 0 < n.val ∧ 0xFFF < s.index.toNat + (n.val - 1)) ∨
         (∃ x, i = .ldB x ∧ 0xFFF < s.index.toNat + 2) ∨
         (∃ x : Reg, (i = .ldMemVx x ∨ i = .ldVxMem x) ∧ 0xFFF < s.index.toNat + x.val))) ∨
     (k = .keypad ∧ ∃ x, (i = .skp x ∨ i = .sknp x) ∧ 15 < (s.reg x).toNat))

/-- The instructions that have no fault of their own answer a next state in every state, and no instruction is refused or answers
`InvalidOpcode` (60_exceptions.md section 1). -/
def Obligations.OtherInstructionsAlwaysComplete : Prop :=
  ∀ (i : Instr) (s : State),
    (canFault i = false → ∃ t, exec i s = .next t) ∧ (∀ r, exec i s ≠ .refused r) ∧
    (∀ op p, exec i s ≠ .fault (.invalidOpcode op p))

/-- The memory primitives (20_memory.md section 4): at a valid address a write is made, a read of that address gives the written
byte and every other address reads as before; above 0xFFF there is neither read nor write. -/
def Obligations.MemoryReadAfterWrite : Prop :=
  ∀ (s : State) (a : Nat) (b : Byte),
    (a ≤ 0xFFF → ∃ v t, s.memRead a = some v ∧ s.memWrite a b = some t ∧ t.memRead a = some b ∧
      ∀ c, c ≠ a → t.memRead c = s.memRead c) ∧
    (0xFFF < a → s.memRead a = none ∧ s.memWrite a b = none)

/-- Which instructions write which part of the state (10_state.md section 11): every part but the general registers and pc is
unchanged by every instruction that is not one of its writers, and no instruction writes the keypad. -/
def Obligations.PartsChangeOnlyByTheirWriters : Prop :=
  ∀ (i : Instr) (s t : State), exec i s = .next t →
    KeepsKeypad s t ∧
    (KeepsDisplay s t ∨ i = .cls ∨ ∃ x y n, i = .drw x y n) ∧
    (KeepsStack s t ∨ i = .ret ∨ ∃ nnn, i = .call nnn) ∧
    (KeepsIndex s t ∨ (∃ nnn, i = .ldI nnn) ∨ ∃ x, i = .addI x ∨ i = .ldF x) ∧
    (t.dt = s.dt ∨ ∃ x, i = .ldDtVx x) ∧
    (t.st = s.st ∨ ∃ x, i = .ldStVx x) ∧
    (KeepsWait s t ∨ ∃ x, i = .ldVxK x) ∧
    (KeepsMemory s t ∨ ∃ x, i = .ldB x ∨ i = .ldMemVx x)

/-! ## Invariants, reset, environment -/

/-- Every step keeps the invariant, from every state that has it: memory and display stay in canonical form and every live stack slot
holds an address 0x0002 to 0x1000 (10_state.md section 10, log entries 6 and 7). -/
def Obligations.StepKeepsInvariant : Prop :=
  ∀ s t : State, s.Inv → step s = .next t → t.Inv

/-- The reset state has the invariant. -/
def Obligations.ResetMeetsInvariant : Prop := State.reset.Inv

/-- Every environment action keeps the invariant, and a reset makes it from any state, whatever `FONT` is (60_exceptions.md section 6). -/
def Obligations.EnvironmentKeepsInvariant : Prop :=
  ∀ font : Config.Font,
    (∀ (a : HostAction) (s t : State), s.Inv → hostAct font a s = .next t → t.Inv) ∧
    (∀ (rom : List Byte) (s t : State), resetWith font rom s = .next t → t.Inv)

/-- Every state of every run, with any `FONT`, any image and any interleaving of steps and environment actions, has the invariant. -/
def Obligations.ReachableStatesMeetInvariant : Prop := ∀ (font : Config.Font) (s : State), Reachable font s → s.Inv

/-- R35. After a reset with an image that fits, every piece of state has the value of the table: registers, I, stack, sp and timers
zero, display dark, no key pressed, Running, pc at 0x200, memory the 80 bytes of the parameter `FONT`, whatever they are, zeros, the
image from 0x200, zeros; and `State.reset` is the reset with the default `FONT` and the empty image. -/
def Obligations.ResetState : Prop :=
  resetWith Config.font [] State.reset = .next State.reset ∧
  ∀ (font : Config.Font) (rom : List Byte) (s : State), rom.length ≤ 3584 →
    ∃ t, resetWith font rom s = .next t ∧ (∀ r, t.reg r = 0) ∧ t.index = 0 ∧ t.pc = 0x200 ∧ (∀ k, t.slot k = 0) ∧ t.sp = 0 ∧
      t.dt = 0 ∧ t.st = 0 ∧ (∀ c, t.pixel c = false) ∧ (∀ k, t.key k = false) ∧ t.waitKey = none ∧
      (∀ a, a < 0x50 → t.memRead a = font[a]?) ∧
      (∀ a, 0x50 ≤ a → a < 0x200 → t.memRead a = some 0) ∧
      (∀ a, 0x200 ≤ a → a < 0x200 + rom.length → t.memRead a = rom[a - 0x200]?) ∧
      (∀ a, 0x200 + rom.length ≤ a → a ≤ 0xFFF → t.memRead a = some 0)

/-- A reset with an image of more than 3584 bytes is refused and creates no state (the spec's decision D21, log entry 2). -/
def Obligations.OverlongImageIsRefused : Prop :=
  ∀ (font : Config.Font) (rom : List Byte) (s : State), 3584 < rom.length → resetWith font rom s = .refused (.romTooLong rom.length)

/-- R193. `set_key(k, pressed)`: Key[k] becomes 1 if pressed, else 0; nothing else changes; a press and release between two steps
leaves no trace. -/
def Obligations.SetKeyWritesOneKey : Prop :=
  ∀ (font : Config.Font) (k : Key) (pressed : Bool) (s : State),
    (∃ t, hostAct font (.setKey k pressed) s = .next t ∧ t.key k = pressed ∧ (∀ j, j ≠ k → t.key j = s.key j) ∧ t.pc = s.pc ∧
      KeepsRegs s t ∧ KeepsIndex s t ∧ KeepsStack s t ∧ KeepsTimers s t ∧ KeepsDisplay s t ∧ KeepsWait s t ∧
      KeepsMemory s t ∧ KeepsDraws s t) ∧
    (s.key k = false → ∃ t, hostAct font (.setKey k true) s = .next t ∧ hostAct font (.setKey k false) t = .next s)

/-- `timer_tick()`: each timer goes down by one, and stays at 0 where it is 0 (general knowledge, decision D15, log entry 2); nothing
else changes. -/
def Obligations.TimerTickDecrementsBoth : Prop :=
  ∀ (font : Config.Font) (s : State),
    ∃ t, hostAct font .timerTick s = .next t ∧ t.dt.toNat = s.dt.toNat - 1 ∧ t.st.toNat = s.st.toNat - 1 ∧ t.pc = s.pc ∧
      KeepsRegs s t ∧ KeepsIndex s t ∧ KeepsStack s t ∧ KeepsDisplay s t ∧ KeepsKeypad s t ∧ KeepsWait s t ∧
      KeepsMemory s t ∧ KeepsDraws s t

/-- A fault is sticky without any state to hold it: the state after it is the state before it, and the same step, at once or after a
key change or a timer tick, faults with the same status (40_step_cycle.md section 5, 60_exceptions.md section 4). -/
def Obligations.FaultsAreSticky : Prop :=
  ∀ (s : State) (f : Fault), step s = .fault f →
    stateAfter s (step s) = s ∧ step (stateAfter s (step s)) = .fault f ∧
    (∀ k pressed, step (setKey k pressed s) = .fault f) ∧ step (timerTick s) = .fault f

/-- No instruction reads ST (10_state.md section 5): two states that differ in ST alone step alike, to states that differ in ST at
most, or fault alike. -/
def Obligations.SoundTimerIsNeverRead : Prop :=
  ∀ (s : State) (b : Byte),
    (∀ t, step s = .next t → ∃ u, step (s.setSt b) = .next u ∧ u.setSt 0 = t.setSt 0) ∧
    (∀ f, step s = .fault f → step (s.setSt b) = .fault f)
end

