-- ==== Sys2Proof/Laws/Decode.lean ====
section
/-! SUPPORT. The fields of an encoded word, and of a word given as two bytes (R53, R71, R72): each field of a format reads back
as it was put in, and a word is put together again from its fields. -/

namespace Sys2Proof

/-! ## Fields as numbers -/

theorem fieldP_toNat (op : Word) : (fieldP op).toNat = op.toNat / 4096 := by
  simp only [fieldP, BitVec.extractLsb'_toNat, Nat.shiftRight_eq_div_pow]; omega

theorem fieldX_val (op : Word) : (fieldX op).val = op.toNat / 256 % 16 := by
  simp only [fieldX, BitVec.extractLsb'_toNat, Nat.shiftRight_eq_div_pow]

theorem fieldY_val (op : Word) : (fieldY op).val = op.toNat / 16 % 16 := by
  simp only [fieldY, BitVec.extractLsb'_toNat, Nat.shiftRight_eq_div_pow]

theorem fieldN_toNat (op : Word) : (fieldN op).toNat = op.toNat % 16 := by
  simp only [fieldN, BitVec.extractLsb'_toNat, Nat.shiftRight_eq_div_pow]; omega

theorem fieldKK_toNat (op : Word) : (fieldKK op).toNat = op.toNat % 256 := by
  simp only [fieldKK, BitVec.extractLsb'_toNat, Nat.shiftRight_eq_div_pow]; omega

theorem fieldNNN_toNat (op : Word) : (fieldNNN op).toNat = op.toNat % 4096 := by
  simp only [fieldNNN, BitVec.extractLsb'_toNat, Nat.shiftRight_eq_div_pow]; omega

theorem rowsOf_val (n : BitVec 4) : (rowsOf n).val = n.toNat := rfl

/-! ## Words as numbers -/

theorem wordOfBytes_toNat (hi lo : Byte) : (wordOfBytes hi lo).toNat = hi.toNat * 256 + lo.toNat := by
  simp only [wordOfBytes, BitVec.toNat_ofNat]; omega

theorem formatA_toNat (p : BitVec 4) (nnn : Addr) : (formatA p nnn).toNat = p.toNat * 4096 + nnn.toNat := by
  simp only [formatA, BitVec.toNat_ofNat]; omega

theorem formatRI_toNat (p : BitVec 4) (x : Reg) (kk : Byte) :
    (formatRI p x kk).toNat = p.toNat * 4096 + x.val * 256 + kk.toNat := by
  simp only [formatRI, BitVec.toNat_ofNat]; omega

theorem formatRR_toNat (p : BitVec 4) (x y : Reg) (n : BitVec 4) :
    (formatRR p x y n).toNat = p.toNat * 4096 + x.val * 256 + y.val * 16 + n.toNat := by
  simp only [formatRR, BitVec.toNat_ofNat]; omega

/-! ## Each field of a format reads back -/

@[simp] theorem fieldP_formatA (p : BitVec 4) (nnn : Addr) : fieldP (formatA p nnn) = p := by
  apply BitVec.eq_of_toNat_eq; rw [fieldP_toNat, formatA_toNat]; omega

@[simp] theorem fieldNNN_formatA (p : BitVec 4) (nnn : Addr) : fieldNNN (formatA p nnn) = nnn := by
  apply BitVec.eq_of_toNat_eq; rw [fieldNNN_toNat, formatA_toNat]; omega

@[simp] theorem fieldP_formatRI (p : BitVec 4) (x : Reg) (kk : Byte) : fieldP (formatRI p x kk) = p := by
  apply BitVec.eq_of_toNat_eq; rw [fieldP_toNat, formatRI_toNat]; omega

@[simp] theorem fieldX_formatRI (p : BitVec 4) (x : Reg) (kk : Byte) : fieldX (formatRI p x kk) = x := by
  apply Fin.ext; rw [fieldX_val, formatRI_toNat]; omega

@[simp] theorem fieldKK_formatRI (p : BitVec 4) (x : Reg) (kk : Byte) : fieldKK (formatRI p x kk) = kk := by
  apply BitVec.eq_of_toNat_eq; rw [fieldKK_toNat, formatRI_toNat]; omega

@[simp] theorem fieldP_formatRR (p : BitVec 4) (x y : Reg) (n : BitVec 4) : fieldP (formatRR p x y n) = p := by
  apply BitVec.eq_of_toNat_eq; rw [fieldP_toNat, formatRR_toNat]; omega

@[simp] theorem fieldX_formatRR (p : BitVec 4) (x y : Reg) (n : BitVec 4) : fieldX (formatRR p x y n) = x := by
  apply Fin.ext; rw [fieldX_val, formatRR_toNat]; omega

@[simp] theorem fieldY_formatRR (p : BitVec 4) (x y : Reg) (n : BitVec 4) : fieldY (formatRR p x y n) = y := by
  apply Fin.ext; rw [fieldY_val, formatRR_toNat]; omega

@[simp] theorem fieldN_formatRR (p : BitVec 4) (x y : Reg) (n : BitVec 4) : fieldN (formatRR p x y n) = n := by
  apply BitVec.eq_of_toNat_eq; rw [fieldN_toNat, formatRR_toNat]; omega

@[simp] theorem rowsOf_ofNat (n : Rows) : rowsOf (BitVec.ofNat 4 n.val) = n := by
  apply Fin.ext; rw [rowsOf_val, BitVec.toNat_ofNat]; omega

/-! ## A word is the format of its fields -/

theorem formatA_fields (op : Word) : formatA (fieldP op) (fieldNNN op) = op := by
  apply BitVec.eq_of_toNat_eq; rw [formatA_toNat, fieldP_toNat, fieldNNN_toNat]; omega

theorem formatRI_fields (op : Word) : formatRI (fieldP op) (fieldX op) (fieldKK op) = op := by
  apply BitVec.eq_of_toNat_eq; rw [formatRI_toNat, fieldP_toNat, fieldX_val, fieldKK_toNat]; omega

theorem formatRR_fields (op : Word) : formatRR (fieldP op) (fieldX op) (fieldY op) (fieldN op) = op := by
  apply BitVec.eq_of_toNat_eq
  rw [formatRR_toNat, fieldP_toNat, fieldX_val, fieldY_val, fieldN_toNat]; omega

/-! ## The masks of the table (R77) -/

theorem and_F000 (op : Word) : (op &&& 0xF000#16).toNat = op.toNat / 4096 * 4096 := by
  have h : op &&& 0xF000#16 = (fieldP op).setWidth 16 <<< 12 := by
    apply BitVec.eq_of_getLsbD_eq; intro i hi
    simp only [fieldP]
    interval_cases i <;> simp
  rw [h]
  simp only [BitVec.toNat_shiftLeft, BitVec.toNat_setWidth, fieldP_toNat, Nat.shiftLeft_eq]; omega

theorem and_000F (op : Word) : (op &&& 0x000F#16).toNat = op.toNat % 16 := by
  rw [BitVec.toNat_and]; exact Nat.and_two_pow_sub_one_eq_mod op.toNat 4

theorem and_00FF (op : Word) : (op &&& 0x00FF#16).toNat = op.toNat % 256 := by
  rw [BitVec.toNat_and]; exact Nat.and_two_pow_sub_one_eq_mod op.toNat 8

theorem toNat_or_disjoint {a b : Word} (k : Nat) (ha : a.toNat % 2 ^ k = 0) (hb : b.toNat < 2 ^ k) :
    (a ||| b).toNat = a.toNat + b.toNat := by
  have h : a.toNat = 2 ^ k * (a.toNat / 2 ^ k) := by have := Nat.div_add_mod a.toNat (2 ^ k); omega
  rw [BitVec.toNat_or, h]
  exact (Nat.two_pow_add_eq_or_of_lt hb _).symm

theorem and_F00F (op : Word) : (op &&& 0xF00F#16).toNat = op.toNat / 4096 * 4096 + op.toNat % 16 := by
  have h : op &&& 0xF00F#16 = (op &&& 0xF000#16) ||| (op &&& 0x000F#16) := by
    rw [← BitVec.and_or_distrib_left]; rfl
  rw [h, toNat_or_disjoint 12 (by rw [and_F000]; omega) (by rw [and_000F]; omega), and_F000, and_000F]

theorem and_F0FF (op : Word) : (op &&& 0xF0FF#16).toNat = op.toNat / 4096 * 4096 + op.toNat % 256 := by
  have h : op &&& 0xF0FF#16 = (op &&& 0xF000#16) ||| (op &&& 0x00FF#16) := by
    rw [← BitVec.and_or_distrib_left]; rfl
  rw [h, toNat_or_disjoint 12 (by rw [and_F000]; omega) (by rw [and_00FF]; omega), and_F000, and_00FF]

/-- A row of format A, RI or RRN selects exactly the words of its family (R77). -/
theorem selects_F000 (op : Word) (p : Nat) (hp : p < 16) :
    Row.selects ⟨BitVec.ofNat 16 (p * 4096), 0xF000⟩ op ↔ op.toNat / 4096 = p := by
  rw [Row.selects, ← BitVec.toNat_inj]
  simp only [show (0xF000 : Word) = 0xF000#16 from rfl, and_F000, BitVec.toNat_ofNat]; omega

/-- A row of format RR selects exactly the words of its family with its low nibble (R77). -/
theorem selects_F00F (op : Word) (p n : Nat) (hp : p < 16) (hn : n < 16) :
    Row.selects ⟨BitVec.ofNat 16 (p * 4096 + n), 0xF00F⟩ op ↔ op.toNat / 4096 = p ∧ op.toNat % 16 = n := by
  rw [Row.selects, ← BitVec.toNat_inj]
  simp only [show (0xF00F : Word) = 0xF00F#16 from rfl, and_F00F, BitVec.toNat_ofNat]; omega

/-- A row of format RS selects exactly the words of its family with its low byte (R77). -/
theorem selects_F0FF (op : Word) (p kk : Nat) (hp : p < 16) (hk : kk < 256) :
    Row.selects ⟨BitVec.ofNat 16 (p * 4096 + kk), 0xF0FF⟩ op ↔ op.toNat / 4096 = p ∧ op.toNat % 256 = kk := by
  rw [Row.selects, ← BitVec.toNat_inj]
  simp only [show (0xF0FF : Word) = 0xF0FF#16 from rfl, and_F0FF, BitVec.toNat_ofNat]; omega

/-! ## The two bytes of a word -/

theorem wordOfBytes_split (w : Word) : wordOfBytes (w.extractLsb' 8 8) (w.extractLsb' 0 8) = w := by
  apply BitVec.eq_of_toNat_eq
  rw [wordOfBytes_toNat]
  simp only [BitVec.extractLsb'_toNat, Nat.shiftRight_eq_div_pow]; omega

/-- Decoding from two bytes is decoding of their word (R53, R70). -/
theorem decodeBytes_cons (hi lo : Byte) (rest : List Byte) :
    decodeBytes (hi :: lo :: rest) =
      match decodeWord (wordOfBytes hi lo) with
      | .ok i => .ok (i, rest)
      | .error e => .error e := rfl

/-! ## The invalid words of a family (R79) -/

theorem decode0_invalid (op : Word) : decode0 op = .error (.invalidWord op) ↔ op.toNat ≠ 0x00E0 ∧ op.toNat ≠ 0x00EE := by
  have e0 : op = 0x00E0 ↔ op.toNat = 0xE0 := by rw [← BitVec.toNat_inj]; rfl
  have e1 : op = 0x00EE ↔ op.toNat = 0xEE := by rw [← BitVec.toNat_inj]; rfl
  unfold decode0
  split
  · next h => simp [e0.mp h]
  · next h =>
    split
    · next h' => simp [e1.mp h']
    · next h' => exact iff_of_true rfl ⟨fun e => h (e0.mpr e), fun e => h' (e1.mpr e)⟩

theorem decode8_invalid (op : Word) : decode8 op = .error (.invalidWord op) ↔
    (8 ≤ op.toNat % 16 ∧ op.toNat % 16 ≤ 0xD) ∨ op.toNat % 16 = 0xF := by
  rw [← fieldN_toNat]
  unfold decode8
  have := (fieldN op).isLt
  split <;> (simp_all [← BitVec.toNat_inj]; try omega)

theorem decodeE_invalid (op : Word) : decodeE op = .error (.invalidWord op) ↔ op.toNat % 256 ∉ [0x9E, 0xA1] := by
  rw [← fieldKK_toNat]
  unfold decodeE
  split <;> simp_all [← BitVec.toNat_inj]

theorem decodeF_invalid (op : Word) : decodeF op = .error (.invalidWord op) ↔
    op.toNat % 256 ∉ [0x07, 0x0A, 0x15, 0x18, 0x1E, 0x29, 0x33, 0x55, 0x65] := by
  rw [← fieldKK_toNat]
  unfold decodeF
  split <;> simp_all [← BitVec.toNat_inj]
end Sys2Proof
end

