-- ==== Sys2Proof/Laws/Display.lean ====
section
/-! SUPPORT. The laws of the display: what a toggle and a draw do to every cell, the cells of a sprite, the canonical form
(R29, R141 to R143). -/

namespace Sys2Proof.Machine

/-! ## One cell -/

namespace Display

theorem mem_light (c e : Pixel) (d : Display) : e ∈ Display.light c d ↔ e = c ∨ e ∈ d := by
  induction d with
  | nil => simp [Display.light]
  | cons a d ih =>
    unfold Display.light
    split
    · simp
    · simp only [List.mem_cons, ih]; tauto

/-- A toggle complements its cell and leaves every other one. -/
theorem mem_toggle (d : Display) (c e : Pixel) : e ∈ d.toggle c ↔ if e = c then e ∉ d else e ∈ d := by
  unfold toggle
  split
  · next hc => by_cases h : e = c <;> simp [h, hc]
  · next hc => by_cases h : e = c <;> simp [mem_light, h, hc]

theorem wf_nil : wf [] := List.Pairwise.nil

theorem wf_light {d : Display} (hd : d.wf) {c : Pixel} (hc : c ∉ d) : wf (Display.light c d) := by
  induction d with
  | nil => exact List.pairwise_singleton _ c
  | cons a d ih =>
    obtain ⟨ha, hd'⟩ := List.pairwise_cons.mp hd
    unfold Display.light
    split
    · next hlt =>
      refine List.pairwise_cons.mpr ⟨fun e he => ?_, hd⟩
      rcases List.mem_cons.mp he with rfl | he
      · exact hlt
      · exact Fin.lt_trans hlt (ha e he)
    · next hge =>
      have hca : c ≠ a := fun h => hc (by simp [h])
      refine List.pairwise_cons.mpr ⟨fun e he => ?_, ih hd' fun h => hc (by simp [h])⟩
      rcases (mem_light c e d).mp he with rfl | he
      · exact lt_of_le_of_ne (not_lt.mp hge) (Ne.symm hca)
      · exact ha e he

/-- A toggle keeps the canonical form. -/
theorem wf_toggle {d : Display} (hd : d.wf) (c : Pixel) : (d.toggle c).wf := by
  unfold toggle
  split
  · exact List.Pairwise.filter _ hd
  · next hc => exact wf_light hd hc

/-- Two displays in canonical form with the same lit cells are the same list. -/
theorem ext_of_wf {d d' : Display} (hd : d.wf) (hd' : d'.wf) (h : ∀ c, c ∈ d ↔ c ∈ d') : d = d' := by
  refine List.Perm.eq_of_pairwise (le := fun a b : Pixel => a < b) ?_ hd hd' ?_
  · intro a b _ _ h₁ h₂; exact absurd h₂ (not_lt.mpr (le_of_lt h₁))
  · have nd : ∀ {d : Display}, d.wf → d.Nodup := fun hd => hd.imp fun h => ne_of_lt h
    exact (List.perm_ext_iff_of_nodup (nd hd) (nd hd')).mpr h

end Display

/-! ## The draw -/

/-- What drawing different cells does to every cell: those drawn are complemented, the others stay. -/
theorem mem_drawCells (cells : List Pixel) (hn : cells.Nodup) (d : Display) (hit : Bool) (e : Pixel) :
    e ∈ (drawCells d hit cells).1 ↔ if e ∈ cells then e ∉ d else e ∈ d := by
  induction cells generalizing d hit with
  | nil => simp [drawCells]
  | cons c cells ih =>
    obtain ⟨hc, hn⟩ := List.nodup_cons.mp hn
    rw [drawCells, ih hn, Display.mem_toggle]
    by_cases h : e = c
    · subst h; simp [hc]
    · simp [h]

/-- The collision bit is set when one of the different cells drawn was lit (R142). -/
theorem drawCells_hit (cells : List Pixel) (hn : cells.Nodup) (d : Display) (hit : Bool) :
    (drawCells d hit cells).2 = (hit || cells.any fun c => decide (c ∈ d)) := by
  induction cells generalizing d hit with
  | nil => simp [drawCells]
  | cons c cells ih =>
    obtain ⟨hc, hn⟩ := List.nodup_cons.mp hn
    have key : (cells.any fun e => decide (e ∈ d.toggle c)) = cells.any fun e => decide (e ∈ d) := by
      rw [Bool.eq_iff_iff, List.any_eq_true, List.any_eq_true]
      refine exists_congr fun e => and_congr_right fun he => ?_
      have hne : e ≠ c := fun h => hc (h ▸ he)
      simp [Display.mem_toggle, hne]
    rw [drawCells, ih hn, key, List.any_cons, Bool.or_assoc]

theorem wf_drawCells (cells : List Pixel) {d : Display} (hd : d.wf) (hit : Bool) : (drawCells d hit cells).1.wf := by
  induction cells generalizing d hit with
  | nil => exact hd
  | cons c cells ih => exact ih (Display.wf_toggle hd c) _

/-! ## The cells of a sprite -/

theorem pixelAt_clip (px py : Nat) (c : Pixel) :
    pixelAt .clip px py = some c ↔ px ≤ 63 ∧ py ≤ 31 ∧ c.val = 64 * py + px := by
  unfold pixelAt
  by_cases h : px ≤ 63 ∧ py ≤ 31
  · simp [h, Fin.ext_iff, eq_comm]
  · simp only [h, dite_false, reduceCtorEq, false_iff]; tauto

theorem pixelAt_wrap (px py : Nat) (c : Pixel) :
    pixelAt .wrap px py = some c ↔ c.val = 64 * (py % 32) + px % 64 := by
  simp [pixelAt, Fin.ext_iff, eq_comm]

theorem mem_spriteColumns (k : Nat) : k ∈ spriteColumns ↔ k < 8 := by
  simp only [spriteColumns, List.mem_cons, List.not_mem_nil, or_false]; omega

theorem mem_rowCells (p : Config.EdgePolicy) (vx py : Nat) (b : Byte) (c : Pixel) :
    c ∈ rowCells p vx py b ↔ ∃ col, col < 8 ∧ b.getLsbD (7 - col) = true ∧ pixelAt p (vx + col) py = some c := by
  simp only [rowCells, List.mem_filterMap, mem_spriteColumns]
  refine exists_congr fun col => and_congr_right fun _ => ?_
  split <;> simp_all

/-- The cells a sprite touches: one for each set bit that is not dropped (R141). -/
theorem mem_spriteCells (p : Config.EdgePolicy) (vx vy : Nat) (rows : List Byte) (c : Pixel) :
    c ∈ spriteCells p vx vy rows ↔
      ∃ row col b, rows[row]? = some b ∧ col < 8 ∧ b.getLsbD (7 - col) = true ∧
        pixelAt p (vx + col) (vy + row) = some c := by
  induction rows generalizing vy with
  | nil => simp [spriteCells]
  | cons b rows ih =>
    rw [spriteCells, List.mem_append, mem_rowCells, ih]
    constructor
    · rintro (⟨col, h⟩ | ⟨row, col, e, he, h⟩)
      · exact ⟨0, col, b, rfl, by simpa using h⟩
      · exact ⟨row + 1, col, e, by simpa using he, by simpa [Nat.add_assoc, Nat.add_comm 1] using h⟩
    · rintro ⟨row, col, e, he, h⟩
      cases row with
      | zero => obtain rfl : b = e := by simpa using he
                exact .inl ⟨col, by simpa using h⟩
      | succ row => exact .inr ⟨row, col, e, by simpa using he, by simpa [Nat.add_assoc, Nat.add_comm 1] using h⟩

/-- Under either policy a cell fixes the row and the column of the pixel that lands on it, as long as the sprite has at most
32 rows. -/
theorem pixelAt_inj (p : Config.EdgePolicy) {vx vy row row' col col' : Nat} {c : Pixel} (hr : row < 32) (hr' : row' < 32)
    (hc : col < 8) (hc' : col' < 8) (h : pixelAt p (vx + col) (vy + row) = some c)
    (h' : pixelAt p (vx + col') (vy + row') = some c) : row = row' ∧ col = col' := by
  cases p with
  | clip =>
    obtain ⟨h₁, h₂, h₃⟩ := (pixelAt_clip _ _ _).mp h
    obtain ⟨h₁', h₂', h₃'⟩ := (pixelAt_clip _ _ _).mp h'
    omega
  | wrap =>
    have h := (pixelAt_wrap _ _ _).mp h
    have h' := (pixelAt_wrap _ _ _).mp h'
    omega

theorem nodup_rowCells (p : Config.EdgePolicy) (vx py : Nat) (b : Byte) : (rowCells p vx py b).Nodup := by
  have hcols : spriteColumns.Pairwise (· ≠ ·) := by decide
  refine List.pairwise_filterMap.mpr (hcols.imp_of_mem fun {col col'} hcol hcol' hne c hc c' hc' e => ?_)
  subst e
  rw [mem_spriteColumns] at hcol hcol'
  rw [Option.ite_none_right_eq_some] at hc hc'
  exact hne (pixelAt_inj p (vy := py) (row := 0) (row' := 0) (by omega) (by omega) hcol hcol' hc.2 hc'.2).2

/-- No cell is touched twice by one draw (R141). -/
theorem nodup_spriteCells (p : Config.EdgePolicy) (vx vy : Nat) (rows : List Byte) (h : rows.length ≤ 32) :
    (spriteCells p vx vy rows).Nodup := by
  induction rows generalizing vy with
  | nil => exact List.nodup_nil
  | cons b rows ih =>
    rw [List.length_cons] at h
    refine List.nodup_append.mpr ⟨nodup_rowCells p vx vy b, ih (vy + 1) (by omega), fun c hc d hd e => ?_⟩
    subst e
    obtain ⟨col, hcol, -, hc⟩ := (mem_rowCells ..).mp hc
    obtain ⟨row, col', b', hb', hcol', -, hc'⟩ := (mem_spriteCells ..).mp hd
    have hrow : row < rows.length := (List.getElem?_eq_some_iff.mp hb').1
    have := pixelAt_inj p (vy := vy) (row := 0) (row' := row + 1) (by omega) (by omega) hcol hcol' hc
      (by rw [← hc', Nat.add_assoc, Nat.add_comm 1 row])
    omega

/-! ## The draw of a sprite -/

/-- A draw leaves every part of the state but the display and VF. -/
theorem drawSprite_eq (p : Config.EdgePolicy) (x y : Reg) (rows : List Byte) (s : State) :
    drawSprite p x y rows s =
      (s.setDisplay (drawCells s.display false (spriteCells p (s.reg x).toNat (s.reg y).toNat rows)).1).setFlag
        (collisionFlag (drawCells s.display false (spriteCells p (s.reg x).toNat (s.reg y).toNat rows)).2) := rfl

end Sys2Proof.Machine
end

