-- ==== Sys2Proof/Laws/Memory.lean ====
section
/-! SUPPORT. The laws of memory: read after write, the canonical form, and reads and writes of several bytes (R55, R57). -/

namespace Sys2Proof.Machine.Memory

/-! ## One cell -/

theorem mem_without (m : Memory) (a : Nat) (c : Host.Cell) : c ∈ m.without a ↔ c ∈ m ∧ c.1 ≠ a := by
  simp [without]

theorem cell_without (m : Memory) (a b : Nat) :
    (m.without a).cell b = if b = a then resetByte b else m.cell b := by
  induction m with
  | nil => simp [without, cell]
  | cons c m ih =>
    unfold without at ih ⊢
    by_cases hc : c.1 = a
    · rw [List.filter_cons_of_neg (by simp [hc]), ih, cell, hc]
      by_cases hb : b = a
      · simp [hb]
      · simp [hb, Ne.symm hb]
    · rw [List.filter_cons_of_pos (by simp [hc]), cell, cell, ih]
      by_cases hb : b = a
      · subst hb; simp [hc]
      · simp [hb]

theorem cell_insert (a b : Nat) (v : Byte) (m : Memory) (h : ∀ c ∈ m, c.1 ≠ a) :
    (Memory.insert a v m).cell b = if b = a then v else m.cell b := by
  induction m with
  | nil => simp [Memory.insert, cell, eq_comm]
  | cons c m ih =>
    have hc : c.1 ≠ a := h c (by simp)
    have ih := ih fun d hd => h d (by simp [hd])
    unfold Memory.insert
    split
    · simp only [cell, eq_comm]
    · rw [cell, ih, cell]
      by_cases hb : b = a
      · subst hb; simp [hc]
      · simp [hb]

/-- A read after a write: the written byte at the written address, the old byte everywhere else. -/
@[simp] theorem cell_put (m : Memory) (a b : Nat) (v : Byte) :
    (m.put a v).cell b = if b = a then v else m.cell b := by
  unfold put
  split
  · next hv =>
    rw [cell_without]
    by_cases hb : b = a <;> simp [hb, hv]
  · rw [cell_insert _ _ _ _ fun c h => ((mem_without m a c).mp h).2, cell_without]
    by_cases hb : b = a <;> simp [hb]

/-! ## The canonical form -/

theorem wf_nil : wf [] := ⟨List.Pairwise.nil, fun _ h => absurd h (List.not_mem_nil)⟩

theorem mem_insert (a : Nat) (v : Byte) (m : Memory) (c : Host.Cell) :
    c ∈ Memory.insert a v m ↔ c = (a, v) ∨ c ∈ m := by
  induction m with
  | nil => simp [Memory.insert]
  | cons d m ih =>
    unfold Memory.insert
    split
    · simp
    · simp only [List.mem_cons, ih]; tauto

theorem pairwise_insert (a : Nat) (v : Byte) (m : Memory) (hs : m.Pairwise fun c d => c.1 < d.1)
    (h : ∀ c ∈ m, c.1 ≠ a) : (Memory.insert a v m).Pairwise fun c d => c.1 < d.1 := by
  induction m with
  | nil => simp [Memory.insert]
  | cons c m ih =>
    obtain ⟨hc, hm⟩ := List.pairwise_cons.mp hs
    unfold Memory.insert
    split
    · next hlt =>
      refine List.pairwise_cons.mpr ⟨fun d hd => ?_, hs⟩
      rcases List.mem_cons.mp hd with rfl | hd
      · exact hlt
      · exact Nat.lt_trans hlt (hc d hd)
    · next hge =>
      refine List.pairwise_cons.mpr ⟨fun d hd => ?_, ih hm fun d hd => h d (by simp [hd])⟩
      rcases (mem_insert a v m d).mp hd with rfl | hd
      · have := h c (by simp)
        simp only; omega
      · exact hc d hd

/-- A write of a valid address keeps the canonical form. -/
theorem wf_put {m : Memory} (hm : m.wf) {a : Nat} (ha : a ≤ 0xFFF) (v : Byte) : (m.put a v).wf := by
  obtain ⟨hs, hc⟩ := hm
  have hs' : (m.without a).Pairwise fun c d => c.1 < d.1 := hs.filter _
  have hc' : ∀ c ∈ m.without a, c.1 < Config.ramSize ∧ c.2 ≠ resetByte c.1 :=
    fun c h => hc c ((mem_without m a c).mp h).1
  unfold put
  split
  · exact ⟨hs', hc'⟩
  · next hv =>
    refine ⟨pairwise_insert a v _ hs' fun c h => ((mem_without m a c).mp h).2, fun c h => ?_⟩
    rcases (mem_insert a v _ c).mp h with rfl | h
    · exact ⟨Nat.lt_succ_of_le ha, hv⟩
    · exact hc' c h

/-! ## Bounds-checked access (R55) -/

theorem read_of_le {m : Memory} {a : Nat} (h : a ≤ 0xFFF) : m.read a = some (m.cell a) := if_pos h

theorem read_of_gt {m : Memory} {a : Nat} (h : 0xFFF < a) : m.read a = none := if_neg (by omega)

theorem write_of_le {m : Memory} {a : Nat} {v : Byte} (h : a ≤ 0xFFF) : m.write a v = some (m.put a v) := if_pos h

theorem write_of_gt {m : Memory} {a : Nat} {v : Byte} (h : 0xFFF < a) : m.write a v = none := if_neg (by omega)

/-- What a write that is made does to every read. -/
theorem read_write {m m' : Memory} {a : Nat} {v : Byte} (h : m.write a v = some m') (b : Nat) :
    m'.read b = if b = a then some v else m.read b := by
  unfold write at h
  split at h
  · next ha =>
    obtain rfl := Option.some.inj h
    unfold read
    by_cases hb : b = a
    · simp [hb, ha]
    · simp [hb]
  · exact absurd h (by simp)

theorem wf_write {m m' : Memory} (hm : m.wf) {a : Nat} {v : Byte} (h : m.write a v = some m') : m'.wf := by
  unfold write at h
  split at h
  · next ha => exact Option.some.inj h ▸ wf_put hm ha v
  · exact absurd h (by simp)

/-! ## Several bytes (R54, R57) -/

/-- A read of `n` bytes is made exactly where every address is valid, and gives the cells in order. -/
theorem readBytes_eq (m : Memory) (a n : Nat) :
    m.readBytes a n =
      if n = 0 ∨ a + (n - 1) ≤ 0xFFF then some ((List.range n).map fun k => m.cell (a + k)) else none := by
  induction n generalizing a with
  | zero => simp [readBytes]
  | succ n ih =>
    unfold readBytes
    by_cases ha : a ≤ 0xFFF
    · rw [read_of_le ha, ih]
      by_cases hn : n = 0 ∨ a + 1 + (n - 1) ≤ 0xFFF
      · rw [if_pos hn, if_pos (by omega)]
        simp [List.range_succ_eq_map, Function.comp_def, Nat.add_assoc, Nat.add_comm 1]
      · rw [if_neg hn, if_neg (by omega)]
    · rw [read_of_gt (by omega), if_neg (by omega)]

/-- A store of bytes is made exactly where every address is valid. -/
theorem writeBytes_isSome (m : Memory) (a : Nat) (bs : List Byte) :
    (m.writeBytes a bs).isSome ↔ bs = [] ∨ a + (bs.length - 1) ≤ 0xFFF := by
  induction bs generalizing m a with
  | nil => simp [writeBytes]
  | cons b bs ih =>
    unfold writeBytes
    by_cases ha : a ≤ 0xFFF
    · simp only [write_of_le ha, ih, List.length_cons, reduceCtorEq, false_or]
      cases bs with
      | nil => simp [ha]
      | cons c bs => simp only [reduceCtorEq, false_or, List.length_cons]; omega
    · simp only [write_of_gt (Nat.lt_of_not_le ha), List.length_cons, reduceCtorEq, false_or, Option.isSome_none,
        Bool.false_eq_true, false_iff]
      omega

/-- What a store of bytes does to every read: the stored byte inside, the old one outside. -/
theorem read_writeBytes {m m' : Memory} {a : Nat} {bs : List Byte} (h : m.writeBytes a bs = some m') (b : Nat) :
    m'.read b = if a ≤ b ∧ b < a + bs.length then bs[b - a]? else m.read b := by
  induction bs generalizing m a with
  | nil =>
    obtain rfl := Option.some.inj h
    rw [if_neg (by simp)]
  | cons v bs ih =>
    unfold writeBytes at h
    split at h
    · exact absurd h (by simp)
    · next m₁ h₁ =>
      rw [ih h, read_write h₁]
      simp only [List.length_cons]
      by_cases hb : b = a
      · subst hb
        simp
      · by_cases hin : a + 1 ≤ b ∧ b < a + 1 + bs.length
        · rw [if_pos hin, if_pos (by omega), show b - a = (b - (a + 1)) + 1 by omega, List.getElem?_cons_succ]
        · rw [if_neg hin, if_neg hb, if_neg (by omega)]

theorem wf_writeBytes {m m' : Memory} (hm : m.wf) {a : Nat} {bs : List Byte} (h : m.writeBytes a bs = some m') :
    m'.wf := by
  induction bs generalizing m a with
  | nil => exact Option.some.inj h ▸ hm
  | cons v bs ih =>
    unfold writeBytes at h
    split at h
    · exact absurd h (by simp)
    · next m₁ h₁ => exact ih (wf_write hm h₁) h

/-! ## Memory after a reset, for every font (R210) -/

theorem length_fontTable : Config.fontTable.length = 80 := rfl

theorem resetByte_above_font {a : Nat} (h : 0x50 ≤ a) : resetByte a = 0 :=
  List.getD_eq_default _ _ (by rw [length_fontTable]; exact h)

/-- The copy of the font is always made, and changes the 80 bytes from `FONT_BASE` alone. -/
theorem writeFont (font : Config.Font) :
    ∃ m, writeBytes [] Config.fontBase font.toList = some m ∧ m.wf ∧
      ∀ a, m.read a = if a < 0x50 then font[a]? else read [] a := by
  have key := (writeBytes_isSome [] Config.fontBase font.toList).mpr (.inr (by simp))
  obtain ⟨m, hm⟩ := Option.isSome_iff_exists.mp key
  refine ⟨m, hm, wf_writeBytes wf_nil hm, fun a => ?_⟩
  rw [read_writeBytes hm]
  simp

/-- What a reset puts in memory: nothing exists for an image that does not fit; else the font, zeros, the image, zeros, in canonical
form. -/
theorem image_cases (font : Config.Font) (rom : List Byte) :
    (3584 < rom.length ∧ image font rom = none) ∨
    (rom.length ≤ 3584 ∧ ∃ m, image font rom = some m ∧ m.wf ∧
      ∀ a, m.read a =
        if a < 0x50 then font[a]?
        else if 0x200 ≤ a ∧ a < 0x200 + rom.length then rom[a - 0x200]?
        else if a ≤ 0xFFF then some 0 else none) := by
  obtain ⟨m₁, h₁, hw₁, hr₁⟩ := writeFont font
  unfold image
  rw [h₁]
  have key := writeBytes_isSome m₁ 0x200 rom
  cases h₂ : m₁.writeBytes 0x200 rom with
  | none =>
    rw [h₂] at key
    simp only [Option.isSome_none, Bool.false_eq_true, false_iff, not_or] at key
    exact .inl ⟨by omega, h₂⟩
  | some m =>
    rw [h₂] at key
    have hl : rom.length ≤ 3584 := by
      rcases key.mp rfl with rfl | h
      · simp
      · omega
    refine .inr ⟨hl, m, h₂, wf_writeBytes hw₁ h₂, fun a => ?_⟩
    rw [read_writeBytes h₂, hr₁]
    by_cases hf : a < 0x50
    · rw [if_neg (by omega), if_pos hf, if_pos hf]
    · rw [if_neg hf, if_neg hf]
      split
      · rfl
      · by_cases ha : a ≤ 0xFFF
        · rw [read_of_le ha, if_pos ha]
          exact congrArg some (resetByte_above_font (Nat.le_of_not_lt hf))
        · rw [read_of_gt (by omega), if_neg ha]

/-! ## Equal memories are equal data -/

theorem cell_of_mem {m : Memory} (hm : m.wf) {c : Host.Cell} (h : c ∈ m) : m.cell c.1 = c.2 := by
  obtain ⟨hs, -⟩ := hm
  induction m with
  | nil => simp at h
  | cons d m ih =>
    obtain ⟨hd, hs⟩ := List.pairwise_cons.mp hs
    rw [cell]
    rcases List.mem_cons.mp h with rfl | h
    · simp
    · rw [if_neg (by have := hd c h; omega)]
      exact ih h hs

theorem mem_of_cell {m : Memory} {a : Nat} (h : m.cell a ≠ resetByte a) : (a, m.cell a) ∈ m := by
  induction m with
  | nil => simp [cell] at h
  | cons c m ih =>
    rw [cell] at h ⊢
    by_cases hc : c.1 = a
    · rw [if_pos hc, ← hc]
      exact List.mem_cons_self
    · simp only [hc, if_false] at h ⊢
      exact List.mem_cons_of_mem c (ih h)

/-- Two memories in canonical form that read alike everywhere are the same list. -/
theorem ext_of_wf {m m' : Memory} (hm : m.wf) (hm' : m'.wf) (h : ∀ a, m.cell a = m'.cell a) : m = m' := by
  have key : ∀ {m m' : Memory}, m.wf → m'.wf → (∀ a, m.cell a = m'.cell a) → ∀ c ∈ m, c ∈ m' := by
    intro m m' hm hm' h c hc
    have h₁ := cell_of_mem hm hc
    have h₂ := (hm.2 c hc).2
    have h₃ : m'.cell c.1 = c.2 := by rw [← h, h₁]
    have := mem_of_cell (m := m') (a := c.1) (by rw [h₃]; exact h₂)
    rwa [h₃] at this
  refine List.Perm.eq_of_pairwise (le := fun c d : Host.Cell => c.1 < d.1) ?_ hm.1 hm'.1 ?_
  · intro c d _ _ h₁ h₂; omega
  · have nd : ∀ {m : Memory}, m.wf → m.Nodup := fun hm => hm.1.imp fun h e => by subst e; omega
    exact (List.perm_ext_iff_of_nodup (nd hm) (nd hm')).mpr fun c =>
      ⟨key hm hm' h c, key hm' hm (fun a => (h a).symm) c⟩

end Sys2Proof.Machine.Memory
end

