-- ==== Sys2Proof/Laws/State.lean ====
section
/-! SUPPORT. For every single update of the state one lemma per field and per read of an array, true by `rfl`, so that no later
proof unfolds a record update. -/

namespace Sys2Proof.Machine.State

variable (s : State)

/-! ### setReg -/

@[simp] theorem setReg_regs (x : Reg) (b : Byte) : (s.setReg x b).regs = s.regs.set x.val b := rfl
@[simp] theorem setReg_index (x : Reg) (b : Byte) : (s.setReg x b).index = s.index := rfl
@[simp] theorem setReg_pc (x : Reg) (b : Byte) : (s.setReg x b).pc = s.pc := rfl
@[simp] theorem setReg_stack (x : Reg) (b : Byte) : (s.setReg x b).stack = s.stack := rfl
@[simp] theorem setReg_sp (x : Reg) (b : Byte) : (s.setReg x b).sp = s.sp := rfl
@[simp] theorem setReg_dt (x : Reg) (b : Byte) : (s.setReg x b).dt = s.dt := rfl
@[simp] theorem setReg_st (x : Reg) (b : Byte) : (s.setReg x b).st = s.st := rfl
@[simp] theorem setReg_display (x : Reg) (b : Byte) : (s.setReg x b).display = s.display := rfl
@[simp] theorem setReg_keys (x : Reg) (b : Byte) : (s.setReg x b).keys = s.keys := rfl
@[simp] theorem setReg_waitKey (x : Reg) (b : Byte) : (s.setReg x b).waitKey = s.waitKey := rfl
@[simp] theorem setReg_mem (x : Reg) (b : Byte) : (s.setReg x b).mem = s.mem := rfl
@[simp] theorem setReg_draws (x : Reg) (b : Byte) : (s.setReg x b).draws = s.draws := rfl
@[simp] theorem setReg_slot (x : Reg) (b : Byte) (j : Fin 16) : (s.setReg x b).slot j = s.slot j := rfl
@[simp] theorem setReg_pixel (x : Reg) (b : Byte) (c : Pixel) : (s.setReg x b).pixel c = s.pixel c := rfl
@[simp] theorem setReg_key (x : Reg) (b : Byte) (j : Key) : (s.setReg x b).key j = s.key j := rfl
@[simp] theorem setReg_memRead (x : Reg) (b : Byte) (a : Nat) : (s.setReg x b).memRead a = s.memRead a := rfl

/-! ### setRegs -/

@[simp] theorem setRegs_regs (bs : List Byte) : (s.setRegs bs).regs = Vector.ofFn (fun r : Fin 16 => bs.getD r.val (s.reg r)) := rfl
@[simp] theorem setRegs_index (bs : List Byte) : (s.setRegs bs).index = s.index := rfl
@[simp] theorem setRegs_pc (bs : List Byte) : (s.setRegs bs).pc = s.pc := rfl
@[simp] theorem setRegs_stack (bs : List Byte) : (s.setRegs bs).stack = s.stack := rfl
@[simp] theorem setRegs_sp (bs : List Byte) : (s.setRegs bs).sp = s.sp := rfl
@[simp] theorem setRegs_dt (bs : List Byte) : (s.setRegs bs).dt = s.dt := rfl
@[simp] theorem setRegs_st (bs : List Byte) : (s.setRegs bs).st = s.st := rfl
@[simp] theorem setRegs_display (bs : List Byte) : (s.setRegs bs).display = s.display := rfl
@[simp] theorem setRegs_keys (bs : List Byte) : (s.setRegs bs).keys = s.keys := rfl
@[simp] theorem setRegs_waitKey (bs : List Byte) : (s.setRegs bs).waitKey = s.waitKey := rfl
@[simp] theorem setRegs_mem (bs : List Byte) : (s.setRegs bs).mem = s.mem := rfl
@[simp] theorem setRegs_draws (bs : List Byte) : (s.setRegs bs).draws = s.draws := rfl
@[simp] theorem setRegs_slot (bs : List Byte) (j : Fin 16) : (s.setRegs bs).slot j = s.slot j := rfl
@[simp] theorem setRegs_pixel (bs : List Byte) (c : Pixel) : (s.setRegs bs).pixel c = s.pixel c := rfl
@[simp] theorem setRegs_key (bs : List Byte) (j : Key) : (s.setRegs bs).key j = s.key j := rfl
@[simp] theorem setRegs_memRead (bs : List Byte) (a : Nat) : (s.setRegs bs).memRead a = s.memRead a := rfl

/-! ### setIndex -/

@[simp] theorem setIndex_regs (w : Word) : (s.setIndex w).regs = s.regs := rfl
@[simp] theorem setIndex_index (w : Word) : (s.setIndex w).index = w := rfl
@[simp] theorem setIndex_pc (w : Word) : (s.setIndex w).pc = s.pc := rfl
@[simp] theorem setIndex_stack (w : Word) : (s.setIndex w).stack = s.stack := rfl
@[simp] theorem setIndex_sp (w : Word) : (s.setIndex w).sp = s.sp := rfl
@[simp] theorem setIndex_dt (w : Word) : (s.setIndex w).dt = s.dt := rfl
@[simp] theorem setIndex_st (w : Word) : (s.setIndex w).st = s.st := rfl
@[simp] theorem setIndex_display (w : Word) : (s.setIndex w).display = s.display := rfl
@[simp] theorem setIndex_keys (w : Word) : (s.setIndex w).keys = s.keys := rfl
@[simp] theorem setIndex_waitKey (w : Word) : (s.setIndex w).waitKey = s.waitKey := rfl
@[simp] theorem setIndex_mem (w : Word) : (s.setIndex w).mem = s.mem := rfl
@[simp] theorem setIndex_draws (w : Word) : (s.setIndex w).draws = s.draws := rfl
@[simp] theorem setIndex_reg (w : Word) (r : Reg) : (s.setIndex w).reg r = s.reg r := rfl
@[simp] theorem setIndex_slot (w : Word) (j : Fin 16) : (s.setIndex w).slot j = s.slot j := rfl
@[simp] theorem setIndex_pixel (w : Word) (c : Pixel) : (s.setIndex w).pixel c = s.pixel c := rfl
@[simp] theorem setIndex_key (w : Word) (j : Key) : (s.setIndex w).key j = s.key j := rfl
@[simp] theorem setIndex_memRead (w : Word) (a : Nat) : (s.setIndex w).memRead a = s.memRead a := rfl

/-! ### jump -/

@[simp] theorem jump_regs (w : Word) : (s.jump w).regs = s.regs := rfl
@[simp] theorem jump_index (w : Word) : (s.jump w).index = s.index := rfl
@[simp] theorem jump_pc (w : Word) : (s.jump w).pc = w := rfl
@[simp] theorem jump_stack (w : Word) : (s.jump w).stack = s.stack := rfl
@[simp] theorem jump_sp (w : Word) : (s.jump w).sp = s.sp := rfl
@[simp] theorem jump_dt (w : Word) : (s.jump w).dt = s.dt := rfl
@[simp] theorem jump_st (w : Word) : (s.jump w).st = s.st := rfl
@[simp] theorem jump_display (w : Word) : (s.jump w).display = s.display := rfl
@[simp] theorem jump_keys (w : Word) : (s.jump w).keys = s.keys := rfl
@[simp] theorem jump_waitKey (w : Word) : (s.jump w).waitKey = s.waitKey := rfl
@[simp] theorem jump_mem (w : Word) : (s.jump w).mem = s.mem := rfl
@[simp] theorem jump_draws (w : Word) : (s.jump w).draws = s.draws := rfl
@[simp] theorem jump_reg (w : Word) (r : Reg) : (s.jump w).reg r = s.reg r := rfl
@[simp] theorem jump_slot (w : Word) (j : Fin 16) : (s.jump w).slot j = s.slot j := rfl
@[simp] theorem jump_pixel (w : Word) (c : Pixel) : (s.jump w).pixel c = s.pixel c := rfl
@[simp] theorem jump_key (w : Word) (j : Key) : (s.jump w).key j = s.key j := rfl
@[simp] theorem jump_memRead (w : Word) (a : Nat) : (s.jump w).memRead a = s.memRead a := rfl

/-! ### setSlot -/

@[simp] theorem setSlot_regs (k : Fin 16) (w : Word) : (s.setSlot k w).regs = s.regs := rfl
@[simp] theorem setSlot_index (k : Fin 16) (w : Word) : (s.setSlot k w).index = s.index := rfl
@[simp] theorem setSlot_pc (k : Fin 16) (w : Word) : (s.setSlot k w).pc = s.pc := rfl
@[simp] theorem setSlot_stack (k : Fin 16) (w : Word) : (s.setSlot k w).stack = s.stack.set k.val w := rfl
@[simp] theorem setSlot_sp (k : Fin 16) (w : Word) : (s.setSlot k w).sp = s.sp := rfl
@[simp] theorem setSlot_dt (k : Fin 16) (w : Word) : (s.setSlot k w).dt = s.dt := rfl
@[simp] theorem setSlot_st (k : Fin 16) (w : Word) : (s.setSlot k w).st = s.st := rfl
@[simp] theorem setSlot_display (k : Fin 16) (w : Word) : (s.setSlot k w).display = s.display := rfl
@[simp] theorem setSlot_keys (k : Fin 16) (w : Word) : (s.setSlot k w).keys = s.keys := rfl
@[simp] theorem setSlot_waitKey (k : Fin 16) (w : Word) : (s.setSlot k w).waitKey = s.waitKey := rfl
@[simp] theorem setSlot_mem (k : Fin 16) (w : Word) : (s.setSlot k w).mem = s.mem := rfl
@[simp] theorem setSlot_draws (k : Fin 16) (w : Word) : (s.setSlot k w).draws = s.draws := rfl
@[simp] theorem setSlot_reg (k : Fin 16) (w : Word) (r : Reg) : (s.setSlot k w).reg r = s.reg r := rfl
@[simp] theorem setSlot_pixel (k : Fin 16) (w : Word) (c : Pixel) : (s.setSlot k w).pixel c = s.pixel c := rfl
@[simp] theorem setSlot_key (k : Fin 16) (w : Word) (j : Key) : (s.setSlot k w).key j = s.key j := rfl
@[simp] theorem setSlot_memRead (k : Fin 16) (w : Word) (a : Nat) : (s.setSlot k w).memRead a = s.memRead a := rfl

/-! ### setSp -/

@[simp] theorem setSp_regs (n : Fin 17) : (s.setSp n).regs = s.regs := rfl
@[simp] theorem setSp_index (n : Fin 17) : (s.setSp n).index = s.index := rfl
@[simp] theorem setSp_pc (n : Fin 17) : (s.setSp n).pc = s.pc := rfl
@[simp] theorem setSp_stack (n : Fin 17) : (s.setSp n).stack = s.stack := rfl
@[simp] theorem setSp_sp (n : Fin 17) : (s.setSp n).sp = n := rfl
@[simp] theorem setSp_dt (n : Fin 17) : (s.setSp n).dt = s.dt := rfl
@[simp] theorem setSp_st (n : Fin 17) : (s.setSp n).st = s.st := rfl
@[simp] theorem setSp_display (n : Fin 17) : (s.setSp n).display = s.display := rfl
@[simp] theorem setSp_keys (n : Fin 17) : (s.setSp n).keys = s.keys := rfl
@[simp] theorem setSp_waitKey (n : Fin 17) : (s.setSp n).waitKey = s.waitKey := rfl
@[simp] theorem setSp_mem (n : Fin 17) : (s.setSp n).mem = s.mem := rfl
@[simp] theorem setSp_draws (n : Fin 17) : (s.setSp n).draws = s.draws := rfl
@[simp] theorem setSp_reg (n : Fin 17) (r : Reg) : (s.setSp n).reg r = s.reg r := rfl
@[simp] theorem setSp_slot (n : Fin 17) (j : Fin 16) : (s.setSp n).slot j = s.slot j := rfl
@[simp] theorem setSp_pixel (n : Fin 17) (c : Pixel) : (s.setSp n).pixel c = s.pixel c := rfl
@[simp] theorem setSp_key (n : Fin 17) (j : Key) : (s.setSp n).key j = s.key j := rfl
@[simp] theorem setSp_memRead (n : Fin 17) (a : Nat) : (s.setSp n).memRead a = s.memRead a := rfl

/-! ### setDt -/

@[simp] theorem setDt_regs (b : Byte) : (s.setDt b).regs = s.regs := rfl
@[simp] theorem setDt_index (b : Byte) : (s.setDt b).index = s.index := rfl
@[simp] theorem setDt_pc (b : Byte) : (s.setDt b).pc = s.pc := rfl
@[simp] theorem setDt_stack (b : Byte) : (s.setDt b).stack = s.stack := rfl
@[simp] theorem setDt_sp (b : Byte) : (s.setDt b).sp = s.sp := rfl
@[simp] theorem setDt_dt (b : Byte) : (s.setDt b).dt = b := rfl
@[simp] theorem setDt_st (b : Byte) : (s.setDt b).st = s.st := rfl
@[simp] theorem setDt_display (b : Byte) : (s.setDt b).display = s.display := rfl
@[simp] theorem setDt_keys (b : Byte) : (s.setDt b).keys = s.keys := rfl
@[simp] theorem setDt_waitKey (b : Byte) : (s.setDt b).waitKey = s.waitKey := rfl
@[simp] theorem setDt_mem (b : Byte) : (s.setDt b).mem = s.mem := rfl
@[simp] theorem setDt_draws (b : Byte) : (s.setDt b).draws = s.draws := rfl
@[simp] theorem setDt_reg (b : Byte) (r : Reg) : (s.setDt b).reg r = s.reg r := rfl
@[simp] theorem setDt_slot (b : Byte) (j : Fin 16) : (s.setDt b).slot j = s.slot j := rfl
@[simp] theorem setDt_pixel (b : Byte) (c : Pixel) : (s.setDt b).pixel c = s.pixel c := rfl
@[simp] theorem setDt_key (b : Byte) (j : Key) : (s.setDt b).key j = s.key j := rfl
@[simp] theorem setDt_memRead (b : Byte) (a : Nat) : (s.setDt b).memRead a = s.memRead a := rfl

/-! ### setSt -/

@[simp] theorem setSt_regs (b : Byte) : (s.setSt b).regs = s.regs := rfl
@[simp] theorem setSt_index (b : Byte) : (s.setSt b).index = s.index := rfl
@[simp] theorem setSt_pc (b : Byte) : (s.setSt b).pc = s.pc := rfl
@[simp] theorem setSt_stack (b : Byte) : (s.setSt b).stack = s.stack := rfl
@[simp] theorem setSt_sp (b : Byte) : (s.setSt b).sp = s.sp := rfl
@[simp] theorem setSt_dt (b : Byte) : (s.setSt b).dt = s.dt := rfl
@[simp] theorem setSt_st (b : Byte) : (s.setSt b).st = b := rfl
@[simp] theorem setSt_display (b : Byte) : (s.setSt b).display = s.display := rfl
@[simp] theorem setSt_keys (b : Byte) : (s.setSt b).keys = s.keys := rfl
@[simp] theorem setSt_waitKey (b : Byte) : (s.setSt b).waitKey = s.waitKey := rfl
@[simp] theorem setSt_mem (b : Byte) : (s.setSt b).mem = s.mem := rfl
@[simp] theorem setSt_draws (b : Byte) : (s.setSt b).draws = s.draws := rfl
@[simp] theorem setSt_reg (b : Byte) (r : Reg) : (s.setSt b).reg r = s.reg r := rfl
@[simp] theorem setSt_slot (b : Byte) (j : Fin 16) : (s.setSt b).slot j = s.slot j := rfl
@[simp] theorem setSt_pixel (b : Byte) (c : Pixel) : (s.setSt b).pixel c = s.pixel c := rfl
@[simp] theorem setSt_key (b : Byte) (j : Key) : (s.setSt b).key j = s.key j := rfl
@[simp] theorem setSt_memRead (b : Byte) (a : Nat) : (s.setSt b).memRead a = s.memRead a := rfl

/-! ### setDisplay -/

@[simp] theorem setDisplay_regs (d : Display) : (s.setDisplay d).regs = s.regs := rfl
@[simp] theorem setDisplay_index (d : Display) : (s.setDisplay d).index = s.index := rfl
@[simp] theorem setDisplay_pc (d : Display) : (s.setDisplay d).pc = s.pc := rfl
@[simp] theorem setDisplay_stack (d : Display) : (s.setDisplay d).stack = s.stack := rfl
@[simp] theorem setDisplay_sp (d : Display) : (s.setDisplay d).sp = s.sp := rfl
@[simp] theorem setDisplay_dt (d : Display) : (s.setDisplay d).dt = s.dt := rfl
@[simp] theorem setDisplay_st (d : Display) : (s.setDisplay d).st = s.st := rfl
@[simp] theorem setDisplay_display (d : Display) : (s.setDisplay d).display = d := rfl
@[simp] theorem setDisplay_keys (d : Display) : (s.setDisplay d).keys = s.keys := rfl
@[simp] theorem setDisplay_waitKey (d : Display) : (s.setDisplay d).waitKey = s.waitKey := rfl
@[simp] theorem setDisplay_mem (d : Display) : (s.setDisplay d).mem = s.mem := rfl
@[simp] theorem setDisplay_draws (d : Display) : (s.setDisplay d).draws = s.draws := rfl
@[simp] theorem setDisplay_reg (d : Display) (r : Reg) : (s.setDisplay d).reg r = s.reg r := rfl
@[simp] theorem setDisplay_slot (d : Display) (j : Fin 16) : (s.setDisplay d).slot j = s.slot j := rfl
@[simp] theorem setDisplay_key (d : Display) (j : Key) : (s.setDisplay d).key j = s.key j := rfl
@[simp] theorem setDisplay_memRead (d : Display) (a : Nat) : (s.setDisplay d).memRead a = s.memRead a := rfl

/-! ### setKey -/

@[simp] theorem setKey_regs (k : Key) (p : Bool) : (s.setKey k p).regs = s.regs := rfl
@[simp] theorem setKey_index (k : Key) (p : Bool) : (s.setKey k p).index = s.index := rfl
@[simp] theorem setKey_pc (k : Key) (p : Bool) : (s.setKey k p).pc = s.pc := rfl
@[simp] theorem setKey_stack (k : Key) (p : Bool) : (s.setKey k p).stack = s.stack := rfl
@[simp] theorem setKey_sp (k : Key) (p : Bool) : (s.setKey k p).sp = s.sp := rfl
@[simp] theorem setKey_dt (k : Key) (p : Bool) : (s.setKey k p).dt = s.dt := rfl
@[simp] theorem setKey_st (k : Key) (p : Bool) : (s.setKey k p).st = s.st := rfl
@[simp] theorem setKey_display (k : Key) (p : Bool) : (s.setKey k p).display = s.display := rfl
@[simp] theorem setKey_keys (k : Key) (p : Bool) : (s.setKey k p).keys = s.keys.set k.val p := rfl
@[simp] theorem setKey_waitKey (k : Key) (p : Bool) : (s.setKey k p).waitKey = s.waitKey := rfl
@[simp] theorem setKey_mem (k : Key) (p : Bool) : (s.setKey k p).mem = s.mem := rfl
@[simp] theorem setKey_draws (k : Key) (p : Bool) : (s.setKey k p).draws = s.draws := rfl
@[simp] theorem setKey_reg (k : Key) (p : Bool) (r : Reg) : (s.setKey k p).reg r = s.reg r := rfl
@[simp] theorem setKey_slot (k : Key) (p : Bool) (j : Fin 16) : (s.setKey k p).slot j = s.slot j := rfl
@[simp] theorem setKey_pixel (k : Key) (p : Bool) (c : Pixel) : (s.setKey k p).pixel c = s.pixel c := rfl
@[simp] theorem setKey_memRead (k : Key) (p : Bool) (a : Nat) : (s.setKey k p).memRead a = s.memRead a := rfl

/-! ### setWait -/

@[simp] theorem setWait_regs (w : Option Reg) : (s.setWait w).regs = s.regs := rfl
@[simp] theorem setWait_index (w : Option Reg) : (s.setWait w).index = s.index := rfl
@[simp] theorem setWait_pc (w : Option Reg) : (s.setWait w).pc = s.pc := rfl
@[simp] theorem setWait_stack (w : Option Reg) : (s.setWait w).stack = s.stack := rfl
@[simp] theorem setWait_sp (w : Option Reg) : (s.setWait w).sp = s.sp := rfl
@[simp] theorem setWait_dt (w : Option Reg) : (s.setWait w).dt = s.dt := rfl
@[simp] theorem setWait_st (w : Option Reg) : (s.setWait w).st = s.st := rfl
@[simp] theorem setWait_display (w : Option Reg) : (s.setWait w).display = s.display := rfl
@[simp] theorem setWait_keys (w : Option Reg) : (s.setWait w).keys = s.keys := rfl
@[simp] theorem setWait_waitKey (w : Option Reg) : (s.setWait w).waitKey = w := rfl
@[simp] theorem setWait_mem (w : Option Reg) : (s.setWait w).mem = s.mem := rfl
@[simp] theorem setWait_draws (w : Option Reg) : (s.setWait w).draws = s.draws := rfl
@[simp] theorem setWait_reg (w : Option Reg) (r : Reg) : (s.setWait w).reg r = s.reg r := rfl
@[simp] theorem setWait_slot (w : Option Reg) (j : Fin 16) : (s.setWait w).slot j = s.slot j := rfl
@[simp] theorem setWait_pixel (w : Option Reg) (c : Pixel) : (s.setWait w).pixel c = s.pixel c := rfl
@[simp] theorem setWait_key (w : Option Reg) (j : Key) : (s.setWait w).key j = s.key j := rfl
@[simp] theorem setWait_memRead (w : Option Reg) (a : Nat) : (s.setWait w).memRead a = s.memRead a := rfl

/-! ### setMem -/

@[simp] theorem setMem_regs (m : Memory) : (s.setMem m).regs = s.regs := rfl
@[simp] theorem setMem_index (m : Memory) : (s.setMem m).index = s.index := rfl
@[simp] theorem setMem_pc (m : Memory) : (s.setMem m).pc = s.pc := rfl
@[simp] theorem setMem_stack (m : Memory) : (s.setMem m).stack = s.stack := rfl
@[simp] theorem setMem_sp (m : Memory) : (s.setMem m).sp = s.sp := rfl
@[simp] theorem setMem_dt (m : Memory) : (s.setMem m).dt = s.dt := rfl
@[simp] theorem setMem_st (m : Memory) : (s.setMem m).st = s.st := rfl
@[simp] theorem setMem_display (m : Memory) : (s.setMem m).display = s.display := rfl
@[simp] theorem setMem_keys (m : Memory) : (s.setMem m).keys = s.keys := rfl
@[simp] theorem setMem_waitKey (m : Memory) : (s.setMem m).waitKey = s.waitKey := rfl
@[simp] theorem setMem_mem (m : Memory) : (s.setMem m).mem = m := rfl
@[simp] theorem setMem_draws (m : Memory) : (s.setMem m).draws = s.draws := rfl
@[simp] theorem setMem_reg (m : Memory) (r : Reg) : (s.setMem m).reg r = s.reg r := rfl
@[simp] theorem setMem_slot (m : Memory) (j : Fin 16) : (s.setMem m).slot j = s.slot j := rfl
@[simp] theorem setMem_pixel (m : Memory) (c : Pixel) : (s.setMem m).pixel c = s.pixel c := rfl
@[simp] theorem setMem_key (m : Memory) (j : Key) : (s.setMem m).key j = s.key j := rfl

/-! ### nextDraw -/

@[simp] theorem nextDraw_regs : s.nextDraw.regs = s.regs := rfl
@[simp] theorem nextDraw_index : s.nextDraw.index = s.index := rfl
@[simp] theorem nextDraw_pc : s.nextDraw.pc = s.pc := rfl
@[simp] theorem nextDraw_stack : s.nextDraw.stack = s.stack := rfl
@[simp] theorem nextDraw_sp : s.nextDraw.sp = s.sp := rfl
@[simp] theorem nextDraw_dt : s.nextDraw.dt = s.dt := rfl
@[simp] theorem nextDraw_st : s.nextDraw.st = s.st := rfl
@[simp] theorem nextDraw_display : s.nextDraw.display = s.display := rfl
@[simp] theorem nextDraw_keys : s.nextDraw.keys = s.keys := rfl
@[simp] theorem nextDraw_waitKey : s.nextDraw.waitKey = s.waitKey := rfl
@[simp] theorem nextDraw_mem : s.nextDraw.mem = s.mem := rfl
@[simp] theorem nextDraw_draws : s.nextDraw.draws = s.draws + 1 := rfl
@[simp] theorem nextDraw_reg (r : Reg) : s.nextDraw.reg r = s.reg r := rfl
@[simp] theorem nextDraw_slot (j : Fin 16) : s.nextDraw.slot j = s.slot j := rfl
@[simp] theorem nextDraw_pixel (c : Pixel) : s.nextDraw.pixel c = s.pixel c := rfl
@[simp] theorem nextDraw_key (j : Key) : s.nextDraw.key j = s.key j := rfl
@[simp] theorem nextDraw_memRead (a : Nat) : s.nextDraw.memRead a = s.memRead a := rfl

/-! ### Reads of the updated array -/

@[simp] theorem setReg_reg (x r : Reg) (b : Byte) : (s.setReg x b).reg r = if r = x then b else s.reg r := by
  simp only [setReg, reg, Vector.getElem_set, Fin.ext_iff, eq_comm]

@[simp] theorem setRegs_reg (bs : List Byte) (r : Reg) : (s.setRegs bs).reg r = bs.getD r.val (s.reg r) := by
  simp [setRegs, reg]

@[simp] theorem setSlot_slot (k j : Fin 16) (w : Word) : (s.setSlot k w).slot j = if j = k then w else s.slot j := by
  simp only [setSlot, slot, Vector.getElem_set, Fin.ext_iff, eq_comm]

@[simp] theorem setKey_key (k j : Key) (p : Bool) : (s.setKey k p).key j = if j = k then p else s.key j := by
  simp only [setKey, key, Vector.getElem_set, Fin.ext_iff, eq_comm]

@[simp] theorem setDisplay_pixel (d : Display) (c : Pixel) : (s.setDisplay d).pixel c = decide (c ∈ d) := rfl

@[simp] theorem setMem_memRead (m : Memory) (a : Nat) : (s.setMem m).memRead a = m.read a := rfl

/-! ### Derived updates -/

@[simp] theorem setFlag_eq (f : Byte) : s.setFlag f = s.setReg vf f := rfl

@[simp] theorem advance_eq : s.advance = s.jump s.npc := rfl

theorem npc_def : s.npc = s.pc + 2 := rfl

/-- A skip moves pc and nothing else. -/
@[simp] theorem skipIf_eq (c : Bool) : s.skipIf c = s.jump (if c then s.pc + 4 else s.pc + 2) := by
  have h : s.pc + 2#16 + 2#16 = s.pc + 4#16 := by bv_omega
  cases c <;> simp [skipIf, npc, h]

end Sys2Proof.Machine.State
end

