-- ==== Sys2Proof/Laws/Ops.lean ====
section
/-! SUPPORT. For each shared operation one lemma that says everything it can do: reads and stores at I, the stack, the key
number, the poll, the fetch, the step. Later proofs cite these and do not unfold the operations. -/

namespace Sys2Proof.Machine

/-! ## Memory through the state (R55) -/

theorem State.memRead_eq (s : State) (a : Nat) : s.memRead a = if a ≤ 0xFFF then some (s.mem.cell a) else none := rfl

theorem State.memRead_isSome (s : State) (a : Nat) : (s.memRead a).isSome ↔ a ≤ 0xFFF := by
  rw [memRead_eq]; split <;> simp [*]

/-- What a write of one byte does: nothing above 0xFFF, else a state whose memory alone has changed, at that address alone. -/
theorem State.memWrite_cases (s : State) (a : Nat) (b : Byte) :
    (0xFFF < a ∧ s.memWrite a b = none) ∨
    (a ≤ 0xFFF ∧ ∃ m, s.memWrite a b = some (s.setMem m) ∧ (s.mem.wf → m.wf) ∧
      ∀ c, m.read c = if c = a then some b else s.memRead c) := by
  by_cases ha : a ≤ 0xFFF
  · refine .inr ⟨ha, s.mem.put a b, ?_, fun h => Memory.wf_put h ha b, Memory.read_write (Memory.write_of_le ha)⟩
    simp [memWrite, Memory.write_of_le ha]
  · exact .inl ⟨by omega, by simp [memWrite, Memory.write_of_gt (Nat.lt_of_not_le ha)]⟩

/-- The bytes at I: none where an address is above 0xFFF, else byte `k` is the one at I + k (R57). -/
theorem State.bytesAtIndex_cases (s : State) (n : Nat) :
    (0 < n ∧ 0xFFF < s.index.toNat + (n - 1) ∧ s.bytesAtIndex n = none) ∨
    ((n = 0 ∨ s.index.toNat + (n - 1) ≤ 0xFFF) ∧ ∃ bs, s.bytesAtIndex n = some bs ∧ bs.length = n ∧
      ∀ k, k < n → bs[k]? = s.memRead (s.index.toNat + k)) := by
  unfold bytesAtIndex
  rw [Memory.readBytes_eq]
  by_cases h : n = 0 ∨ s.index.toNat + (n - 1) ≤ 0xFFF
  · refine .inr ⟨h, _, if_pos h, by simp, fun k hk => ?_⟩
    rw [memRead_eq, if_pos (by omega)]
    simp [hk]
  · exact .inl ⟨by omega, by omega, if_neg h⟩

/-- A store at I: nothing where an address is above 0xFFF, else a state whose memory alone has changed, and there only the bytes
stored (R57). -/
theorem State.storeAtIndex_cases (s : State) (bs : List Byte) :
    (bs ≠ [] ∧ 0xFFF < s.index.toNat + (bs.length - 1) ∧ s.storeAtIndex bs = none) ∨
    ((bs = [] ∨ s.index.toNat + (bs.length - 1) ≤ 0xFFF) ∧ ∃ m, s.storeAtIndex bs = some (s.setMem m) ∧
      (s.mem.wf → m.wf) ∧
      ∀ a, m.read a = if s.index.toNat ≤ a ∧ a < s.index.toNat + bs.length then bs[a - s.index.toNat]? else s.memRead a) := by
  unfold storeAtIndex
  have key := Memory.writeBytes_isSome s.mem s.index.toNat bs
  cases hw : s.mem.writeBytes s.index.toNat bs with
  | none =>
    rw [hw] at key
    simp only [Option.isSome_none, Bool.false_eq_true, false_iff, not_or] at key
    exact .inl ⟨key.1, by omega, rfl⟩
  | some m =>
    rw [hw] at key
    exact .inr ⟨key.mp rfl, m, rfl, fun h => Memory.wf_writeBytes h hw, Memory.read_writeBytes hw⟩

theorem State.regsTo_length (s : State) (x : Reg) : (s.regsTo x).length = x.val + 1 := by
  simp [regsTo]

theorem State.regsTo_ne_nil (s : State) (x : Reg) : s.regsTo x ≠ [] := by
  intro h; have := s.regsTo_length x; simp [h] at this

theorem State.regsTo_getElem? (s : State) (x r : Reg) (h : r ≤ x) : (s.regsTo x)[r.val]? = some (s.reg r) := by
  have : r.val < x.val + 1 := Nat.lt_succ_of_le h
  simp [regsTo, State.reg, this]

/-! ## The stack (R101, R103) -/

theorem State.push_cases (s : State) (w : Word) :
    (s.sp = 16 ∧ s.push w = none) ∨
    (∃ h : s.sp.val < 16, s.push w = some ((s.setSlot ⟨s.sp.val, h⟩ w).setSp ⟨s.sp.val + 1, by omega⟩)) := by
  unfold push
  by_cases h : s.sp.val < 16
  · exact .inr ⟨h, dif_pos h⟩
  · exact .inl ⟨Fin.ext (by have := s.sp.isLt; simp; omega), dif_neg h⟩

theorem State.pop_cases (s : State) :
    (s.sp = 0 ∧ s.pop = none) ∨
    (∃ h : 0 < s.sp.val, s.pop = some (s.slot ⟨s.sp.val - 1, by omega⟩, s.setSp ⟨s.sp.val - 1, by omega⟩)) := by
  unfold pop
  by_cases h : 0 < s.sp.val
  · exact .inr ⟨h, dif_pos h⟩
  · exact .inl ⟨Fin.ext (by simp; omega), dif_neg h⟩

/-! ## The keypad (R91, R150) -/

theorem State.keyNumber_cases (s : State) (x : Reg) :
    (15 < (s.reg x).toNat ∧ s.keyNumber x = none) ∨
    (∃ h : (s.reg x).toNat < 16, s.keyNumber x = some ⟨(s.reg x).toNat, h⟩) := by
  unfold keyNumber
  by_cases h : (s.reg x).toNat < 16
  · exact .inr ⟨h, dif_pos h⟩
  · exact .inl ⟨by omega, dif_neg h⟩

/-- No key is found exactly where none is pressed. -/
theorem State.lowestKey_none (s : State) : s.lowestKey = none ↔ ∀ k, s.key k = false := by
  simp [lowestKey, List.find?_eq_none]

/-- The key found is the least pressed one. -/
theorem State.lowestKey_some (s : State) (k : Key) :
    s.lowestKey = some k ↔ s.key k = true ∧ ∀ j, j < k → s.key j = false := by
  unfold lowestKey
  rw [List.find?_eq_some_iff_getElem]
  constructor
  · rintro ⟨hk, i, hi, hik, hlt⟩
    refine ⟨hk, fun j hj => ?_⟩
    have hi' : (List.finRange 16)[i] = k := hik
    rw [List.getElem_finRange] at hi'
    have hv : i = k.val := by rw [← hi']; rfl
    have := hlt j.val (by rw [hv]; exact hj)
    simpa using this
  · rintro ⟨hk, hlt⟩
    refine ⟨hk, k.val, by simp, by simp, fun j hj => ?_⟩
    simpa using hlt ⟨j, by omega⟩ hj

/-- What a poll can do (R91). -/
theorem pollKeypad_cases (r : Reg) (s : State) :
    ((∀ k, s.key k = false) ∧ pollKeypad r s = s) ∨
    (∃ k, s.key k = true ∧ (∀ j, j < k → s.key j = false) ∧
      pollKeypad r s = (s.setReg r (BitVec.ofNat 8 k.val)).setWait none) := by
  unfold pollKeypad
  cases h : s.lowestKey with
  | none => exact .inl ⟨s.lowestKey_none.mp h, rfl⟩
  | some k => exact .inr ⟨k, (s.lowestKey_some k).mp h |>.1, (s.lowestKey_some k).mp h |>.2, rfl⟩

/-! ## The fetch (R56, R92, R93) -/

theorem State.fetchWord_cases (s : State) :
    (0xFFF ≤ s.pc.toNat ∧ s.fetchWord = none) ∨
    (s.pc.toNat ≤ 0xFFE ∧
      s.fetchWord = some (wordOfBytes (s.mem.cell s.pc.toNat) (s.mem.cell (s.pc.toNat + 1)))) := by
  unfold fetchWord
  rw [memRead_eq, memRead_eq]
  by_cases h : s.pc.toNat ≤ 0xFFE
  · exact .inr ⟨h, by rw [if_pos (by omega), if_pos (by omega)]⟩
  · refine .inl ⟨by omega, ?_⟩
    rw [if_neg (show ¬ s.pc.toNat + 1 ≤ 0xFFF by omega)]
    split <;> simp_all

/-! ## The step (R90) -/

theorem step_waiting {s : State} {r : Reg} (h : s.waitKey = some r) : step s = .next (pollKeypad r s) := by
  simp [step, h]

/-- What a Running step does with what the fetch gives. -/
theorem step_running {s : State} (h : s.waitKey = none) :
    (s.fetchWord = none ∧ step s = .fault (.outOfBoundsAccess s.pc .fetch)) ∨
    (∃ op e, s.fetchWord = some op ∧ decodeWord op = .error e ∧ step s = .fault (.invalidOpcode op s.pc)) ∨
    (∃ op i, s.fetchWord = some op ∧ decodeWord op = .ok i ∧ step s = exec i s) := by
  unfold step State.fetchInstr
  rw [h]
  cases hf : s.fetchWord with
  | none => exact .inl ⟨rfl, rfl⟩
  | some op =>
    cases hd : decodeWord op with
    | error e => exact .inr (.inl ⟨op, e, rfl, hd, by simp [hd, raise]⟩)
    | ok i => exact .inr (.inr ⟨op, i, rfl, hd, by simp [hd]⟩)

/-- A step that answers a next state is a poll or one instruction. -/
theorem step_next_cases {s t : State} (h : step s = .next t) :
    (∃ r, s.waitKey = some r ∧ t = pollKeypad r s) ∨
    (∃ op i, s.waitKey = none ∧ s.fetchWord = some op ∧ decodeWord op = .ok i ∧ exec i s = .next t) := by
  cases hw : s.waitKey with
  | some r =>
    rw [step_waiting hw] at h
    exact .inl ⟨r, rfl, (Host.Outcome.next.inj h).symm⟩
  | none =>
    rcases step_running hw with ⟨-, hs⟩ | ⟨op, e, -, -, hs⟩ | ⟨op, i, hf, hd, hs⟩
    · rw [hs] at h; cases h
    · rw [hs] at h; cases h
    · exact .inr ⟨op, i, rfl, hf, hd, hs ▸ h⟩

end Sys2Proof.Machine
end

