-- ==== Sys2Proof/Laws/Environment.lean ====
section
/-! SUPPORT. What a reset can do, for every value of the parameter `FONT` (R210, R211), and that the default font with the empty image
gives `State.reset`. -/

namespace Sys2Proof.Machine

/-- With the default font and the empty image memory lists nothing. -/
theorem Memory.image_default : Memory.image Config.font [] = some [] := by decide

/-- A reset with the default font and the empty image makes `State.reset`, up to the counter of draws, which it keeps. -/
theorem resetWith_default (s : State) : resetWith Config.font [] s = .next { State.reset with draws := s.draws } := by
  simp only [resetWith, Memory.image_default]
  rfl

/-- A reset refuses an image that does not fit; else every part but memory and the counter of draws is that of `State.reset`, and
memory holds the font, zeros, the image, zeros, in canonical form. -/
theorem resetWith_cases (font : Config.Font) (rom : List Byte) (s : State) :
    (3584 < rom.length ∧ resetWith font rom s = .refused (.romTooLong rom.length)) ∨
    (rom.length ≤ 3584 ∧ ∃ m, m.wf ∧
      resetWith font rom s = .next ({ State.reset with draws := s.draws }.setMem m) ∧
      ∀ a, m.read a =
        if a < 0x50 then font[a]?
        else if 0x200 ≤ a ∧ a < 0x200 + rom.length then rom[a - 0x200]?
        else if a ≤ 0xFFF then some 0 else none) := by
  unfold resetWith
  rcases Memory.image_cases font rom with ⟨hl, h⟩ | ⟨hl, m, h, hw, hr⟩
  · exact .inl ⟨hl, by rw [h]⟩
  · exact .inr ⟨hl, m, hw, by rw [h]; rfl, hr⟩

end Sys2Proof.Machine
end

