-- ==== Sys2Proof/Laws/Exec.lean ====
section
/-! SUPPORT. The meanings that can stop or branch, each with everything it can do; the meanings not listed here are one update
after another and open by `rfl`. The ALU's arithmetic as numbers. -/

namespace Sys2Proof.Machine

/-! ## Control flow -/

/-- `RET` (R101). -/
theorem execRet_cases (s : State) :
    (s.sp = 0 ∧ execRet s = .fault (.stackUnderflow s.pc)) ∨
    (∃ h : 0 < s.sp.val, execRet s =
      .next ((s.setSp ⟨s.sp.val - 1, by omega⟩).jump (s.slot ⟨s.sp.val - 1, by omega⟩))) := by
  unfold execRet
  rcases s.pop_cases with ⟨h, hp⟩ | ⟨h, hp⟩
  · exact .inl ⟨h, by rw [hp]; rfl⟩
  · exact .inr ⟨h, by rw [hp]⟩

/-- `CALL` (R103). -/
theorem execCall_cases (nnn : Addr) (s : State) :
    (s.sp = 16 ∧ execCall nnn s = .fault (.stackOverflow s.pc)) ∨
    (∃ h : s.sp.val < 16, execCall nnn s =
      .next (((s.setSlot ⟨s.sp.val, h⟩ s.npc).setSp ⟨s.sp.val + 1, by omega⟩).jump (zextAddr nnn))) := by
  unfold execCall
  rcases s.push_cases s.npc with ⟨h, hp⟩ | ⟨h, hp⟩
  · exact .inl ⟨h, by rw [hp]; rfl⟩
  · exact .inr ⟨h, by rw [hp]⟩

/-! ## Keys -/

/-- `SKP` (R150). -/
theorem execSkp_cases (x : Reg) (s : State) :
    (15 < (s.reg x).toNat ∧ execSkp x s = .fault (.outOfBoundsAccess s.pc .keypad)) ∨
    (∃ h : (s.reg x).toNat < 16, execSkp x s = .next (s.skipIf (s.key ⟨(s.reg x).toNat, h⟩))) := by
  unfold execSkp
  rcases s.keyNumber_cases x with ⟨h, hk⟩ | ⟨h, hk⟩
  · exact .inl ⟨h, by rw [hk]; rfl⟩
  · exact .inr ⟨h, by rw [hk]⟩

/-- `SKNP` (R151). -/
theorem execSknp_cases (x : Reg) (s : State) :
    (15 < (s.reg x).toNat ∧ execSknp x s = .fault (.outOfBoundsAccess s.pc .keypad)) ∨
    (∃ h : (s.reg x).toNat < 16, execSknp x s = .next (s.skipIf (!s.key ⟨(s.reg x).toNat, h⟩))) := by
  unfold execSknp
  rcases s.keyNumber_cases x with ⟨h, hk⟩ | ⟨h, hk⟩
  · exact .inl ⟨h, by rw [hk]; rfl⟩
  · exact .inr ⟨h, by rw [hk]⟩

/-! ## Memory at I -/

/-- `DRW` (R141): a fault where a sprite byte lies above 0xFFF, else the draw of the bytes at I. -/
theorem execDrw_cases (x y : Reg) (n : Rows) (s : State) :
    (0 < n.val ∧ 0xFFF < s.index.toNat + (n.val - 1) ∧ execDrw x y n s = .fault (.outOfBoundsAccess s.pc .data)) ∨
    ((n.val = 0 ∨ s.index.toNat + (n.val - 1) ≤ 0xFFF) ∧ ∃ rows, rows.length = n.val ∧
      (∀ k, k < n.val → rows[k]? = s.memRead (s.index.toNat + k)) ∧
      execDrw x y n s = .next (drawSprite Config.edgePolicy x y rows s.advance)) := by
  unfold execDrw
  rcases s.bytesAtIndex_cases n.val with ⟨h₁, h₂, hb⟩ | ⟨h, rows, hb, hl, hr⟩
  · exact .inl ⟨h₁, h₂, by rw [hb]; rfl⟩
  · exact .inr ⟨h, rows, hl, hr, by rw [hb]⟩

/-- The stores at I (R166, R167): a fault where an address is above 0xFFF, else only the stored bytes change. -/
theorem storeBytes_cases (bs : List Byte) (s : State) :
    (bs ≠ [] ∧ 0xFFF < s.index.toNat + (bs.length - 1) ∧ storeBytes bs s = .fault (.outOfBoundsAccess s.pc .data)) ∨
    ((bs = [] ∨ s.index.toNat + (bs.length - 1) ≤ 0xFFF) ∧ ∃ m, (s.mem.wf → m.wf) ∧
      (∀ a, m.read a =
        if s.index.toNat ≤ a ∧ a < s.index.toNat + bs.length then bs[a - s.index.toNat]? else s.memRead a) ∧
      storeBytes bs s = .next ((s.setMem m).advance)) := by
  unfold storeBytes
  rcases s.storeAtIndex_cases bs with ⟨h₁, h₂, hb⟩ | ⟨h, m, hb, hw, hr⟩
  · exact .inl ⟨h₁, h₂, by rw [hb]; rfl⟩
  · exact .inr ⟨h, m, hw, hr, by rw [hb]⟩

/-- `LD Vx, [I]` (R168). -/
theorem execLdVxMem_cases (x : Reg) (s : State) :
    (0xFFF < s.index.toNat + x.val ∧ execLdVxMem x s = .fault (.outOfBoundsAccess s.pc .data)) ∨
    (s.index.toNat + x.val ≤ 0xFFF ∧ ∃ bs, bs.length = x.val + 1 ∧
      (∀ k, k < x.val + 1 → bs[k]? = s.memRead (s.index.toNat + k)) ∧
      execLdVxMem x s = .next (s.advance.setRegs bs)) := by
  unfold execLdVxMem
  rcases s.bytesAtIndex_cases (x.val + 1) with ⟨h₁, h₂, hb⟩ | ⟨h, bs, hb, hl, hr⟩
  · exact .inl ⟨by omega, by rw [hb]; rfl⟩
  · exact .inr ⟨by omega, bs, hl, hr, by rw [hb]⟩

/-! ## Arithmetic as numbers (R133) -/

theorem addByte_toNat (a b : Byte) : (addByte a b).toNat = (a.toNat + b.toNat) % 256 := by
  simp [addByte]

theorem subByte_toNat (a b : Byte) : (subByte a b).toNat = (a.toNat + 256 - b.toNat) % 256 := by
  have := a.isLt; have := b.isLt
  simp only [subByte, BitVec.toNat_ofInt]; omega

theorem shiftRightByte_toNat (a : Byte) : (shiftRightByte a).toNat = a.toNat / 2 := by
  simp only [shiftRightByte, BitVec.toNat_ofNat]; omega

theorem shiftLeftByte_toNat (a : Byte) : (shiftLeftByte a).toNat = 2 * a.toNat % 256 := by
  simp [shiftLeftByte]

theorem flagOf_toNat (c : Bool) : (flagOf c).toNat = if c then 1 else 0 := by
  cases c <;> rfl

theorem shiftRightFlag_toNat (a : Byte) : (shiftRightFlag a).toNat = a.toNat % 2 := by
  rw [shiftRightFlag, flagOf_toNat]
  simp only [BitVec.getLsbD, Nat.testBit_zero]
  rcases Nat.mod_two_eq_zero_or_one a.toNat with h | h <;> simp [h]

theorem shiftLeftFlag_toNat (a : Byte) : (shiftLeftFlag a).toNat = a.toNat / 128 := by
  rw [shiftLeftFlag, flagOf_toNat]
  have := a.isLt
  simp only [BitVec.getLsbD, Nat.testBit_eq_decide_div_mod_eq, decide_eq_true_eq]
  split <;> omega

theorem zextAddr_toNat (nnn : Addr) : (zextAddr nnn).toNat = nnn.toNat := by
  simp only [zextAddr, BitVec.toNat_setWidth]; omega

theorem zextByte_toNat (b : Byte) : (zextByte b).toNat = b.toNat := by
  simp only [zextByte, BitVec.toNat_setWidth]; omega

theorem bcdDigits_length (v : Byte) : (bcdDigits v).length = 3 := rfl

end Sys2Proof.Machine
end

