-- ==== Sys2Proof/Laws/Frames.lean ====
section
/-! SUPPORT. The frame predicates of `Safety.lean` from the fields of the state, the draw said through the reads of the state, and
the canonical forms through the draw and the reset. -/

namespace Sys2Proof.Machine

/-- A frame from the equality of the fields. -/
theorem onlyRegsAndPc_of_fields {s t : State} (hi : t.index = s.index) (hk : t.stack = s.stack) (hp : t.sp = s.sp)
    (hd : t.dt = s.dt) (hs : t.st = s.st) (hD : t.display = s.display) (hK : t.keys = s.keys) (hw : t.waitKey = s.waitKey)
    (hm : t.mem = s.mem) (hn : t.draws = s.draws) : OnlyRegsAndPc s t where
  index := hi
  stack := ⟨hp, fun k => by simp [State.slot, hk]⟩
  timers := ⟨hd, hs⟩
  display := fun c => by simp [State.pixel, hD]
  keypad := fun k => by simp [State.key, hK]
  wait := hw
  memory := fun a => by simp [State.memRead, hm]
  draws := hn

/-- A jump changes pc alone. -/
theorem onlyPc_jump (s : State) (w : Word) : OnlyPc s (s.jump w) :=
  ⟨fun _ => rfl, onlyRegsAndPc_of_fields rfl rfl rfl rfl rfl rfl rfl rfl rfl rfl⟩

/-- A write of one register after the advance of pc changes that register and pc. -/
theorem onlyRegsAndPc_setReg (s : State) (w : Word) (x : Reg) (b : Byte) : OnlyRegsAndPc s ((s.jump w).setReg x b) :=
  onlyRegsAndPc_of_fields rfl rfl rfl rfl rfl rfl rfl rfl rfl rfl

/-- The same of a register and then the flag. -/
theorem onlyRegsAndPc_setReg_setReg (s : State) (w : Word) (x y : Reg) (b c : Byte) :
    OnlyRegsAndPc s (((s.jump w).setReg x b).setReg y c) :=
  onlyRegsAndPc_of_fields rfl rfl rfl rfl rfl rfl rfl rfl rfl rfl

/-- The cells the specification touches are the cells the draw visits (R141). -/
theorem touches_iff_mem (p : Config.EdgePolicy) (vx vy : Nat) (rows : List Byte) (c : Pixel) :
    Touches p vx vy rows c ↔ c ∈ spriteCells p vx vy rows := by
  rw [mem_spriteCells]; unfold Touches LandsOn
  cases p <;> simp only [pixelAt_clip, pixelAt_wrap]

/-- A draw complements the cells it touches and leaves the others (R141). -/
theorem pixel_drawSprite (p : Config.EdgePolicy) (x y : Reg) (rows : List Byte) (s : State) (h : rows.length ≤ 32) (c : Pixel) :
    (drawSprite p x y rows s).pixel c = true ↔
      (c ∈ spriteCells p (s.reg x).toNat (s.reg y).toNat rows ↔ s.pixel c = false) := by
  have hn := nodup_spriteCells p (s.reg x).toNat (s.reg y).toNat rows h
  simp only [drawSprite_eq, State.pixel, State.setFlag_eq, State.setReg_display, State.setDisplay_display, decide_eq_true_eq,
    mem_drawCells _ hn]
  split <;> simp_all

/-- A draw reports a collision where a touched cell was lit (R142). -/
theorem vf_drawSprite (p : Config.EdgePolicy) (x y : Reg) (rows : List Byte) (s : State) (h : rows.length ≤ 32) :
    (drawSprite p x y rows s).reg vf =
      flagOf ((spriteCells p (s.reg x).toNat (s.reg y).toNat rows).any fun c => s.pixel c) := by
  have hn := nodup_spriteCells p (s.reg x).toNat (s.reg y).toNat rows h
  rw [drawSprite_eq, drawCells_hit _ hn, Bool.false_or]
  simp [State.pixel, collisionFlag]

end Sys2Proof.Machine
end

