-- ==== Sys2Proof/Laws/PerInstr.lean ====
section
/-! SUPPORT. Statements about every instruction, one lemma per constructor. Family `EncodesRow`: the encoder's word of an
instruction selects the instruction's own row of rule R77's table. -/

namespace Sys2Proof.Laws.EncodesRow

/-- The word of `i` selects the row of `i` (R77). -/
def Statement (i : Instr) : Prop := i.row.selects (encode i)

theorem cls : Statement .cls := rfl

theorem ret : Statement .ret := rfl

theorem jp (nnn : Addr) : Statement (.jp nnn) :=
  (selects_F000 _ 1 (by omega)).mpr (by simp only [encode, formatA_toNat, BitVec.reduceToNat]; omega)

theorem call (nnn : Addr) : Statement (.call nnn) :=
  (selects_F000 _ 2 (by omega)).mpr (by simp only [encode, formatA_toNat, BitVec.reduceToNat]; omega)

theorem seImm (x : Reg) (kk : Byte) : Statement (.seImm x kk) :=
  (selects_F000 _ 3 (by omega)).mpr (by simp only [encode, formatRI_toNat, BitVec.reduceToNat]; omega)

theorem sneImm (x : Reg) (kk : Byte) : Statement (.sneImm x kk) :=
  (selects_F000 _ 4 (by omega)).mpr (by simp only [encode, formatRI_toNat, BitVec.reduceToNat]; omega)

theorem seReg (x : Reg) (y : Reg) : Statement (.seReg x y) :=
  (selects_F00F _ 5 0 (by omega) (by omega)).mpr (by simp only [encode, formatRR_toNat, BitVec.reduceToNat]; omega)

theorem ldImm (x : Reg) (kk : Byte) : Statement (.ldImm x kk) :=
  (selects_F000 _ 6 (by omega)).mpr (by simp only [encode, formatRI_toNat, BitVec.reduceToNat]; omega)

theorem addImm (x : Reg) (kk : Byte) : Statement (.addImm x kk) :=
  (selects_F000 _ 7 (by omega)).mpr (by simp only [encode, formatRI_toNat, BitVec.reduceToNat]; omega)

theorem ldReg (x : Reg) (y : Reg) : Statement (.ldReg x y) :=
  (selects_F00F _ 8 0 (by omega) (by omega)).mpr (by simp only [encode, formatRR_toNat, BitVec.reduceToNat]; omega)

theorem orReg (x : Reg) (y : Reg) : Statement (.orReg x y) :=
  (selects_F00F _ 8 1 (by omega) (by omega)).mpr (by simp only [encode, formatRR_toNat, BitVec.reduceToNat]; omega)

theorem andReg (x : Reg) (y : Reg) : Statement (.andReg x y) :=
  (selects_F00F _ 8 2 (by omega) (by omega)).mpr (by simp only [encode, formatRR_toNat, BitVec.reduceToNat]; omega)

theorem xorReg (x : Reg) (y : Reg) : Statement (.xorReg x y) :=
  (selects_F00F _ 8 3 (by omega) (by omega)).mpr (by simp only [encode, formatRR_toNat, BitVec.reduceToNat]; omega)

theorem addReg (x : Reg) (y : Reg) : Statement (.addReg x y) :=
  (selects_F00F _ 8 4 (by omega) (by omega)).mpr (by simp only [encode, formatRR_toNat, BitVec.reduceToNat]; omega)

theorem sub (x : Reg) (y : Reg) : Statement (.sub x y) :=
  (selects_F00F _ 8 5 (by omega) (by omega)).mpr (by simp only [encode, formatRR_toNat, BitVec.reduceToNat]; omega)

theorem shr (x : Reg) (y : Reg) : Statement (.shr x y) :=
  (selects_F00F _ 8 6 (by omega) (by omega)).mpr (by simp only [encode, formatRR_toNat, BitVec.reduceToNat]; omega)

theorem subn (x : Reg) (y : Reg) : Statement (.subn x y) :=
  (selects_F00F _ 8 7 (by omega) (by omega)).mpr (by simp only [encode, formatRR_toNat, BitVec.reduceToNat]; omega)

theorem shl (x : Reg) (y : Reg) : Statement (.shl x y) :=
  (selects_F00F _ 8 14 (by omega) (by omega)).mpr (by simp only [encode, formatRR_toNat, BitVec.reduceToNat]; omega)

theorem sneReg (x : Reg) (y : Reg) : Statement (.sneReg x y) :=
  (selects_F00F _ 9 0 (by omega) (by omega)).mpr (by simp only [encode, formatRR_toNat, BitVec.reduceToNat]; omega)

theorem ldI (nnn : Addr) : Statement (.ldI nnn) :=
  (selects_F000 _ 10 (by omega)).mpr (by simp only [encode, formatA_toNat, BitVec.reduceToNat]; omega)

theorem jpV0 (nnn : Addr) : Statement (.jpV0 nnn) :=
  (selects_F000 _ 11 (by omega)).mpr (by simp only [encode, formatA_toNat, BitVec.reduceToNat]; omega)

theorem rnd (x : Reg) (kk : Byte) : Statement (.rnd x kk) :=
  (selects_F000 _ 12 (by omega)).mpr (by simp only [encode, formatRI_toNat, BitVec.reduceToNat]; omega)

theorem drw (x : Reg) (y : Reg) (n : Rows) : Statement (.drw x y n) :=
  (selects_F000 _ 13 (by omega)).mpr (by simp only [encode, formatRR_toNat, BitVec.reduceToNat]; omega)

theorem skp (x : Reg) : Statement (.skp x) :=
  (selects_F0FF _ 14 158 (by omega) (by omega)).mpr (by simp only [encode, formatRI_toNat, BitVec.reduceToNat]; omega)

theorem sknp (x : Reg) : Statement (.sknp x) :=
  (selects_F0FF _ 14 161 (by omega) (by omega)).mpr (by simp only [encode, formatRI_toNat, BitVec.reduceToNat]; omega)

theorem ldVxDt (x : Reg) : Statement (.ldVxDt x) :=
  (selects_F0FF _ 15 7 (by omega) (by omega)).mpr (by simp only [encode, formatRI_toNat, BitVec.reduceToNat]; omega)

theorem ldVxK (x : Reg) : Statement (.ldVxK x) :=
  (selects_F0FF _ 15 10 (by omega) (by omega)).mpr (by simp only [encode, formatRI_toNat, BitVec.reduceToNat]; omega)

theorem ldDtVx (x : Reg) : Statement (.ldDtVx x) :=
  (selects_F0FF _ 15 21 (by omega) (by omega)).mpr (by simp only [encode, formatRI_toNat, BitVec.reduceToNat]; omega)

theorem ldStVx (x : Reg) : Statement (.ldStVx x) :=
  (selects_F0FF _ 15 24 (by omega) (by omega)).mpr (by simp only [encode, formatRI_toNat, BitVec.reduceToNat]; omega)

theorem addI (x : Reg) : Statement (.addI x) :=
  (selects_F0FF _ 15 30 (by omega) (by omega)).mpr (by simp only [encode, formatRI_toNat, BitVec.reduceToNat]; omega)

theorem ldF (x : Reg) : Statement (.ldF x) :=
  (selects_F0FF _ 15 41 (by omega) (by omega)).mpr (by simp only [encode, formatRI_toNat, BitVec.reduceToNat]; omega)

theorem ldB (x : Reg) : Statement (.ldB x) :=
  (selects_F0FF _ 15 51 (by omega) (by omega)).mpr (by simp only [encode, formatRI_toNat, BitVec.reduceToNat]; omega)

theorem ldMemVx (x : Reg) : Statement (.ldMemVx x) :=
  (selects_F0FF _ 15 85 (by omega) (by omega)).mpr (by simp only [encode, formatRI_toNat, BitVec.reduceToNat]; omega)

theorem ldVxMem (x : Reg) : Statement (.ldVxMem x) :=
  (selects_F0FF _ 15 101 (by omega) (by omega)).mpr (by simp only [encode, formatRI_toNat, BitVec.reduceToNat]; omega)

end Sys2Proof.Laws.EncodesRow
end

