-- ==== Sys2Proof/Tests/Slice0.lean ====
section
/-! SUPPORT. Tests of the model: the well-formedness check, a word of every instruction written out from the table of rule R77, one
or two small steps for each instruction with the expected values of `95_test_vectors.md` (the vector is named before the test), the
environment actions, and for every obligation with hypotheses a concrete state and operands that meet them. -/

namespace Sys2Proof.Tests

open Sys2Proof.Machine

/-! ## Well-formedness -/

theorem test_ldI_needs_hasAB : (Instr.ldI 0x123).wellFormedWith false = false := by decide
theorem test_jpV0_needs_hasAB : (Instr.jpV0 0x123).wellFormedWith false = false := by decide
theorem test_ldI_wellFormed : (Instr.ldI 0x123).wellFormed = true := by decide
theorem test_cls_needs_nothing : Instr.cls.wellFormedWith false = true := by decide

/-! ## Decoding: words written out bit by bit (vectors DE1 to DE25) -/

/-- The decoder gives exactly this instruction for the word. -/
abbrev Decodes (op : Word) (i : Instr) : Prop := decodeWord op = .ok i

/-- The decoder rejects the word. -/
abbrev Invalid (op : Word) : Prop := decodeWord op = .error (.invalidWord op)

theorem test_decode_00E0 : Decodes 0b0000000011100000 .cls := by decide
theorem test_decode_00EE : Decodes 0b0000000011101110 .ret := by decide
theorem test_decode_1nnn : Decodes 0b0001101010111100 (.jp 0xABC) := by decide
theorem test_decode_2nnn : Decodes 0b0010111111111111 (.call 0xFFF) := by decide
theorem test_decode_3xkk : Decodes 0b0011101011111111 (.seImm 10 0xFF) := by decide
theorem test_decode_4xkk : Decodes 0b0100000000000111 (.sneImm 0 0x07) := by decide
theorem test_decode_5xy0 : Decodes 0b0101101010110000 (.seReg 10 11) := by decide
theorem test_decode_6xkk : Decodes 0b0110111101000010 (.ldImm 15 0x42) := by decide
theorem test_decode_7xkk : Decodes 0b0111000000000001 (.addImm 0 0x01) := by decide
theorem test_decode_8xy0 : Decodes 0b1000000100100000 (.ldReg 1 2) := by decide
theorem test_decode_8xy1 : Decodes 0b1000000100100001 (.orReg 1 2) := by decide
theorem test_decode_8xy2 : Decodes 0b1000000100100010 (.andReg 1 2) := by decide
theorem test_decode_8xy3 : Decodes 0b1000000100100011 (.xorReg 1 2) := by decide
theorem test_decode_8xy4 : Decodes 0b1000000100100100 (.addReg 1 2) := by decide
theorem test_decode_8xy5 : Decodes 0b1000000100100101 (.sub 1 2) := by decide
theorem test_decode_8xy6 : Decodes 0b1000000100100110 (.shr 1 2) := by decide
theorem test_decode_8xy7 : Decodes 0b1000000100100111 (.subn 1 2) := by decide
theorem test_decode_8xyE : Decodes 0b1000000100101110 (.shl 1 2) := by decide
theorem test_decode_9xy0 : Decodes 0b1001101010110000 (.sneReg 10 11) := by decide
theorem test_decode_Annn : Decodes 0b1010000100100011 (.ldI 0x123) := by decide
theorem test_decode_Bnnn : Decodes 0b1011000100100011 (.jpV0 0x123) := by decide
theorem test_decode_Cxkk : Decodes 0b1100001100001111 (.rnd 3 0x0F) := by decide
theorem test_decode_Dxyn : Decodes 0b1101000100100101 (.drw 1 2 5) := by decide
theorem test_decode_Ex9E : Decodes 0b1110000110011110 (.skp 1) := by decide
theorem test_decode_ExA1 : Decodes 0b1110000110100001 (.sknp 1) := by decide
theorem test_decode_Fx07 : Decodes 0b1111000100000111 (.ldVxDt 1) := by decide
theorem test_decode_Fx0A : Decodes 0b1111000100001010 (.ldVxK 1) := by decide
theorem test_decode_Fx15 : Decodes 0b1111000100010101 (.ldDtVx 1) := by decide
theorem test_decode_Fx18 : Decodes 0b1111000100011000 (.ldStVx 1) := by decide
theorem test_decode_Fx1E : Decodes 0b1111000100011110 (.addI 1) := by decide
theorem test_decode_Fx29 : Decodes 0b1111000100101001 (.ldF 1) := by decide
theorem test_decode_Fx33 : Decodes 0b1111000100110011 (.ldB 1) := by decide
theorem test_decode_Fx55 : Decodes 0b1111000101010101 (.ldMemVx 1) := by decide
theorem test_decode_Fx65 : Decodes 0b1111000101100101 (.ldVxMem 1) := by decide
theorem test_decode_Dxy0 : Decodes 0xD120 (.drw 1 2 0) := by decide

theorem test_invalid_family_0 : Invalid 0x0000 ∧ Invalid 0x00E1 ∧ Invalid 0x00FE ∧ Invalid 0x0FFF := by decide
theorem test_invalid_families_5_9 : Invalid 0x5AB1 ∧ Invalid 0x5ABF ∧ Invalid 0x9AB4 := by decide
theorem test_invalid_family_8 : Invalid 0x8128 ∧ Invalid 0x812D ∧ Invalid 0x812F := by decide
theorem test_invalid_families_E_F : Invalid 0xE19F ∧ Invalid 0xE100 ∧ Invalid 0xF108 ∧ Invalid 0xF185 := by decide
theorem test_invalid_without_AB : decodeWordWith false 0xA123 = .error (.invalidWord 0xA123) := by decide
theorem test_decode_truncated : decodeBytes [0x12] = .error .truncated := by decide

/-- The host's reading of a table word takes the high byte first (R53). -/
theorem test_decodeTableWord : decodeTableWord 16 0x1ABC = some (.jp 0xABC) := by decide

/-! ## Small states -/

/-- The reset state with the instruction word `op` at 0x200, the convention of the vectors. -/
def holding (op : Nat) : State := State.reset.withFetchWord 16 op

/-- What one step leaves, seen through `view`; nothing where the step does not complete. -/
def afterStep {α : Type} (s : State) (view : State → α) : Option α :=
  match step s with
  | .next t => some (view t)
  | .fault _ => none
  | .refused _ => none

/-- The fault of one step, if it faults. -/
def faultOf (s : State) : Option Fault :=
  match step s with
  | .next _ => none
  | .fault f => some f
  | .refused _ => none

/-! ## Control flow -/

/-- S8: the popped slot keeps its value. -/
theorem test_ret_pops : afterStep ((((holding 0x00EE).setSlot 1 0x220).setSlot 2 0x230).setSp 3)
    (fun t => (t.pc, t.sp, t.slot 2)) = some (0x230, 2, 0x230) := by decide
/-- CF8. -/
theorem test_ret_underflow : faultOf (holding 0x00EE) = some (.stackUnderflow 0x200) := by decide
/-- CF4: an odd target is permitted. -/
theorem test_jp_odd : afterStep (holding 0x1203) (fun t => t.pc) = some 0x203 := by decide
/-- CF3. -/
theorem test_jp_to_last_byte : faultOf ((holding 0x1FFF).jump 0xFFF) = some (.outOfBoundsAccess 0xFFF .fetch) := by decide
/-- CF6. -/
theorem test_call_sixteenth : afterStep ((holding 0x2300).setSp 15) (fun t => (t.slot 15, t.sp, t.pc)) =
    some (0x202, 16, 0x300) := by decide
/-- CF7. -/
theorem test_call_overflow : faultOf ((holding 0x2300).setSp 16) = some (.stackOverflow 0x200) := by decide
/-- CF11. -/
theorem test_seImm_skips : afterStep ((holding 0x3212).setReg 2 0x12) (fun t => t.pc) = some 0x204 := by decide
/-- CF12. -/
theorem test_seImm_goes_on : afterStep ((holding 0x3212).setReg 2 0x13) (fun t => t.pc) = some 0x202 := by decide
/-- CF14. -/
theorem test_sneImm_skips : afterStep ((holding 0x4213).setReg 2 0x12) (fun t => t.pc) = some 0x204 := by decide
/-- CF13. -/
theorem test_sneImm_goes_on : afterStep ((holding 0x4212).setReg 2 0x12) (fun t => t.pc) = some 0x202 := by decide
/-- CF16. -/
theorem test_seReg_goes_on : afterStep (((holding 0x5120).setReg 1 7).setReg 2 8) (fun t => t.pc) = some 0x202 := by decide
/-- CF17. -/
theorem test_seReg_same : afterStep ((holding 0x5330).setReg 3 0x99) (fun t => t.pc) = some 0x204 := by decide
/-- CF18. -/
theorem test_sneReg_skips : afterStep (((holding 0x9120).setReg 1 7).setReg 2 8) (fun t => t.pc) = some 0x204 := by decide
/-- CF20. -/
theorem test_sneReg_same : afterStep ((holding 0x9330).setReg 3 0x99) (fun t => t.pc) = some 0x202 := by decide
/-- CF23. -/
theorem test_jpV0_above_memory : afterStep ((holding 0xBFFF).setReg 0 0xFF) (fun t => t.pc) = some 0x10FE := by decide
/-- CF24: the offset register is V0 whatever the second nibble. -/
theorem test_jpV0_uses_V0 : afterStep ((holding 0xB2FF).setReg 2 9) (fun t => t.pc) = some 0x2FF := by decide

/-! ## Load, ALU, random -/

/-- AL2: the flag register is an ordinary destination. -/
theorem test_ldImm_VF : afterStep (holding 0x6F42) (fun t => t.reg 15) = some 0x42 := by decide
/-- AL3: no carry flag. -/
theorem test_addImm_no_flag : afterStep (((holding 0x7102).setReg 1 0xFF).setReg 15 0xAA) (fun t => (t.reg 1, t.reg 15)) =
    some (0x01, 0xAA) := by decide
/-- AL6. -/
theorem test_ldReg : afterStep (((holding 0x8120).setReg 1 0x11).setReg 2 0x22) (fun t => (t.reg 1, t.reg 2)) =
    some (0x22, 0x22) := by decide
/-- AL8. -/
theorem test_or : afterStep ((((holding 0x8121).setReg 1 0xF0).setReg 2 0x0F).setReg 15 0xAA) (fun t => (t.reg 1, t.reg 15)) =
    some (0xFF, 0xAA) := by decide
/-- AL9. -/
theorem test_and : afterStep ((((holding 0x8122).setReg 1 0xF0).setReg 2 0x3C).setReg 15 0xAA) (fun t => (t.reg 1, t.reg 15)) =
    some (0x30, 0xAA) := by decide
/-- AL10. -/
theorem test_xor : afterStep ((((holding 0x8123).setReg 1 0xF0).setReg 2 0x3C).setReg 15 0xAA) (fun t => (t.reg 1, t.reg 15)) =
    some (0xCC, 0xAA) := by decide
/-- AL18: a sum of exactly 256. -/
theorem test_addReg_carry : afterStep (((holding 0x8124).setReg 1 0x64).setReg 2 0x9C) (fun t => (t.reg 1, t.reg 15)) =
    some (0x00, 0x01) := by decide
/-- AL21: with x = 15 the sum is lost and the flag stays. -/
theorem test_addReg_VF : afterStep (((holding 0x8F24).setReg 15 0x01).setReg 2 0x02) (fun t => t.reg 15) = some 0x00 := by decide
/-- AL26. -/
theorem test_sub_borrow : afterStep (((holding 0x8125).setReg 1 0x0A).setReg 2 0x14) (fun t => (t.reg 1, t.reg 15)) =
    some (0xF6, 0x00) := by decide
/-- AL28: equal operands give not-borrow 1. -/
theorem test_sub_equal : afterStep (((holding 0x8125).setReg 1 0x05).setReg 2 0x05) (fun t => (t.reg 1, t.reg 15)) =
    some (0x00, 0x01) := by decide
/-- AL37: y is ignored. -/
theorem test_shr_ignores_y : afterStep (((holding 0x8126).setReg 1 0x17).setReg 2 0x55) (fun t => (t.reg 1, t.reg 2, t.reg 15)) =
    some (0x0B, 0x55, 0x01) := by decide
/-- AL41: the shift is logical. -/
theorem test_shr_logical : afterStep ((holding 0x8126).setReg 1 0x80) (fun t => (t.reg 1, t.reg 15)) = some (0x40, 0x00) := by decide
/-- AL44. -/
theorem test_subn : afterStep (((holding 0x8127).setReg 1 0x0A).setReg 2 0x14) (fun t => (t.reg 1, t.reg 15)) =
    some (0x0A, 0x01) := by decide
/-- AL50: the old VF is the minuend. -/
theorem test_subn_VF : afterStep ((holding 0x81F7).setReg 15 0x01) (fun t => (t.reg 1, t.reg 15)) = some (0x01, 0x01) := by decide
/-- AL51. -/
theorem test_shl : afterStep (((holding 0x812E).setReg 1 0x81).setReg 2 0x55) (fun t => (t.reg 1, t.reg 2, t.reg 15)) =
    some (0x02, 0x55, 0x01) := by decide
/-- AL57: with x = 15 the result is lost. -/
theorem test_shl_VF : afterStep ((holding 0x8F2E).setReg 15 0x40) (fun t => t.reg 15) = some 0x00 := by decide
/-- AL59: a mask of 0 gives 0 whatever the draw is. -/
theorem test_rnd_mask_zero : afterStep (holding 0xC300) (fun t => t.reg 3) = some 0 := by
  show some (Config.freeRandom 0 &&& 0#8) = some 0
  simp
/-- AL60: a mask of 0xFF gives the draw, and the next draw is another free value. -/
theorem test_rnd_mask_full : afterStep (holding 0xC3FF) (fun t => (t.reg 3, t.draws)) = some (Config.freeRandom 0 &&& 0xFF#8, 1) := rfl

/-! ## Display -/

/-- DR1. -/
theorem test_cls : afterStep (((holding 0x00E0).setDisplay [5, 100, 2047]).setReg 15 7) (fun t => (t.display, t.reg 15)) =
    some ([], 7) := by decide
/-- DR16: the clipped corner. -/
theorem test_drw_clips : afterStep (((holding 0xD125).setReg 1 62).setReg 2 30) (fun t => (t.display, t.reg 15)) =
    some ([1982, 1983, 2046], 0) := by decide
/-- DR6: a lit cell becomes unlit. -/
theorem test_drw_collides : afterStep ((((holding 0xD121).setIndex 0x300).setDisplay [0]).placeWord 0x300 0xC0 0)
    (fun t => (t.display, t.reg 15)) = some ([1], 1) := by decide
/-- DR14 under the other policy. -/
theorem test_drawSprite_wraps : (drawSprite .wrap 1 2 [0xFF] ((State.reset.setReg 1 250).setReg 2 255)).display =
    [1984, 1985, 2042, 2043, 2044, 2045, 2046, 2047] := by decide

/-! ## Keypad -/

/-- KP7. -/
theorem test_skp_last_key : afterStep (((holding 0xE19E).setReg 1 0x0F).setKey 15 true) (fun t => t.pc) = some 0x204 := by decide
/-- KP5. -/
theorem test_skp_no_such_key : faultOf ((holding 0xE19E).setReg 1 0x10) = some (.outOfBoundsAccess 0x200 .keypad) := by decide
/-- KP3. -/
theorem test_sknp_skips : afterStep ((holding 0xE1A1).setReg 1 3) (fun t => t.pc) = some 0x204 := by decide
/-- KP4. -/
theorem test_sknp_goes_on : afterStep (((holding 0xE1A1).setReg 1 3).setKey 3 true) (fun t => t.pc) = some 0x202 := by decide
/-- KP9: the entering step does not poll. -/
theorem test_ldVxK_enters : afterStep ((holding 0xF10A).setKey 5 true) (fun t => (t.waitKey, t.pc, t.reg 1)) =
    some (some 1, 0x202, 0) := by decide
/-- KP11: the least pressed key wins. -/
theorem test_poll_lowest : afterStep ((((State.reset.jump 0x202).setWait (some 1)).setKey 7 true).setKey 3 true)
    (fun t => (t.reg 1, t.waitKey, t.pc)) = some (3, none, 0x202) := by decide
/-- KP13: a poll does not fetch. -/
theorem test_poll_no_fetch : afterStep ((State.reset.jump 0xFFF).setWait (some 1)) (fun t => (t.waitKey, t.pc)) =
    some (some 1, 0xFFF) := by decide

/-! ## Index, timers, memory -/

/-- TM2. -/
theorem test_ldI : afterStep (holding 0xAFFF) (fun t => t.index) = some 0xFFF := by decide
/-- TM3. -/
theorem test_ldVxDt : afterStep ((holding 0xF207).setDt 58) (fun t => (t.reg 2, t.dt)) = some (0x3A, 58) := by decide
/-- TM4. -/
theorem test_ldDtVx : afterStep ((holding 0xF015).setReg 0 60) (fun t => (t.dt, t.st)) = some (60, 0) := by decide
/-- TM5. -/
theorem test_ldStVx : afterStep ((holding 0xF318).setReg 3 5) (fun t => (t.st, t.dt)) = some (5, 0) := by decide
/-- TM8: the sum wraps and VF stays. -/
theorem test_addI_wraps : afterStep ((((holding 0xF21E).setIndex 0xFFFF).setReg 2 1).setReg 15 0xAA)
    (fun t => (t.index, t.reg 15)) = some (0, 0xAA) := by decide
/-- TM12: no mask. -/
theorem test_ldF_no_mask : afterStep ((holding 0xF029).setReg 0 0xFF) (fun t => t.index) = some 0x4FB := by decide
/-- TM15: at the top of memory. -/
theorem test_ldB_top : afterStep (((holding 0xF033).setIndex 0xFFD).setReg 0 123)
    (fun t => (t.memRead 0xFFD, t.memRead 0xFFE, t.memRead 0xFFF)) = some (some 1, some 2, some 3) := by decide
/-- TM16. -/
theorem test_ldB_fault : faultOf (((holding 0xF033).setIndex 0xFFE).setReg 0 123) = some (.outOfBoundsAccess 0x200 .data) := by decide
/-- TM17. -/
theorem test_ldMemVx : afterStep ((((holding 0xF155).setIndex 0x208).setReg 0 0x12).setReg 1 0x08)
    (fun t => (t.memRead 0x208, t.memRead 0x209, t.memRead 0x20A, t.index)) = some (some 0x12, some 0x08, some 0, 0x208) := by decide
/-- TM26: the address does not wrap. -/
theorem test_ldMemVx_no_wrap : faultOf ((holding 0xF155).setIndex 0xFFFF) = some (.outOfBoundsAccess 0x200 .data) := by decide
/-- TM22: the registers above x stay. -/
theorem test_ldVxMem : afterStep (((((holding 0xF265).setIndex 0x280).placeWord 0x280 2 3).placeWord 0x282 4 0).setReg 3 0x99)
    (fun t => (t.reg 0, t.reg 1, t.reg 2, t.reg 3)) = some (2, 3, 4, 0x99) := by decide
/-- TM24. -/
theorem test_ldVxMem_fault : faultOf ((holding 0xF165).setIndex 0xFFF) = some (.outOfBoundsAccess 0x200 .data) := by decide

/-! ## Step, reset, environment -/

/-- ST1. -/
theorem test_reset_step : faultOf State.reset = some (.invalidOpcode 0x0000 0x0200) := by decide
/-- ST4: the last word of memory can be fetched. -/
theorem test_fetch_last_word : afterStep ((State.reset.jump 0xFFE).placeWord 0xFFE 0x60 0x07) (fun t => (t.reg 0, t.pc)) =
    some (7, 0x1000) := by decide
/-- ST5. -/
theorem test_fetch_fault : faultOf (State.reset.jump 0xFFFF) = some (.outOfBoundsAccess 0xFFFF .fetch) := by decide
/-- ST6: the font bytes F0 90 are no instruction. -/
theorem test_fetch_font : faultOf (State.reset.jump 0) = some (.invalidOpcode 0xF090 0) := by decide
/-- ST8. -/
theorem test_timerTick : (timerTick ((State.reset.setDt 0xFF).setSt 1)).dt = 0xFE ∧
    (timerTick ((State.reset.setDt 0xFF).setSt 1)).st = 0 := by decide
/-- ST7: a timer at 0 stays at 0. -/
theorem test_timerTick_zero : (timerTick State.reset).dt = 0 := by decide
/-- ST9. -/
theorem test_setKey : (setKey 9 true State.reset).key 9 = true ∧ (setKey 9 false (setKey 9 true State.reset)).key 9 = false := by decide
/-- ST10: a reset from a state that is not the reset state. -/
theorem test_resetWith : resetWith Config.font [0x12, 0x00] ((State.reset.setReg 3 4).setWait (some 2)) =
    .next (State.reset.withFetchWord 16 0x1200) := by rfl
/-- ST13. -/
theorem test_font : State.reset.memRead 0x000 = some 0xF0 ∧ State.reset.memRead 0x04F = some 0x80 ∧
    State.reset.memRead 0x050 = some 0 := by decide

/-- A font that differs from the default in its last byte. -/
def otherFont : Config.Font := Config.font.set 79 0x0F

/-- R210 with another `FONT`: its bytes stand at 0x000 to 0x04F, 0x050 stays 0, and the image stands at 0x200. -/
theorem test_reset_other_font :
    (Memory.image otherFont [0x12]).map (fun m => (m.cell 0x000, m.cell 0x04F, m.cell 0x050, m.cell 0x200)) =
      some (0xF0, 0x0F, 0, 0x12) := by decide
/-- The same memory lists only the cells that differ from the default. -/
theorem test_reset_other_font_canonical : Memory.image otherFont [] = some [(0x04F, 0x0F)] := by decide

/-! ## Witnesses: every obligation with hypotheses has states and operands that meet them -/

/-- The two clauses, at the highest address a word can be fetched from: CLS, and a word that decodes to nothing. -/
theorem witness_RunningStepRunsTheDecodedInstruction :
    (let s := (State.reset.jump 0xFFE).placeWord 0xFFE 0x00 0xE0
     s.waitKey = none ∧ s.memRead s.pc.toNat = some 0x00 ∧ s.memRead (s.pc.toNat + 1) = some 0xE0 ∧
       decodeWord (wordOfBytes 0x00 0xE0) = .ok .cls) ∧
    (let s := State.reset
     s.waitKey = none ∧ s.memRead s.pc.toNat = some 0x00 ∧ s.memRead (s.pc.toNat + 1) = some 0x00 ∧
       decodeWord (wordOfBytes 0x00 0x00) = .error (.invalidWord 0x0000)) := by decide

theorem witness_FetchIsBigEndian : (State.reset.jump 0xFFE).pc.toNat ≤ 0xFFE := by decide

/-- Both sides of the equivalence hold at 0xFFF, both fail at 0xFFE and in AwaitingKey. -/
theorem witness_FetchFaultsExactlyOutOfBounds :
    faultOf (State.reset.jump 0xFFF) = some (.outOfBoundsAccess 0xFFF .fetch) ∧
    faultOf (State.reset.jump 0xFFE) = some (.invalidOpcode 0 0xFFE) ∧
    faultOf ((State.reset.jump 0xFFF).setWait (some 0)) = none := by decide

theorem witness_DecodeOfEncodeIsIdentity : (Instr.ldI 0xFFF).wellFormedWith true = true ∧
    (Instr.drw 15 15 15).wellFormedWith false = true ∧ (Instr.jpV0 0).wellFormed = true := by decide

theorem witness_EncodeOfDecodeIsIdentity : decodeWordWith true 0xBFFF = .ok (.jpV0 0xFFF) ∧
    decodeWordWith false 0xDFFF = .ok (.drw 15 15 15) := by decide

theorem witness_DecodeAgreesWithTheTable : (⟨0x00E0, 0xFFFF⟩ : Row) ∈ tableRows ∧ Row.selects ⟨0x00E0, 0xFFFF⟩ 0x00E0 ∧
    decodeWord 0x00E0 = .ok .cls := by decide

/-- A word of each disjunct at the ends of its range, and the valid words beside them. -/
theorem witness_InvalidWordsAreThoseListed :
    Invalid 0x00DF ∧ Invalid 0x00EF ∧ Invalid 0x5001 ∧ Invalid 0x5FFF ∧ Invalid 0x8008 ∧ Invalid 0x8FFD ∧ Invalid 0x800F ∧
    Invalid 0x9001 ∧ Invalid 0xE09D ∧ Invalid 0xF066 ∧ Decodes 0x8007 (.subn 0 0) ∧ Decodes 0x8FFE (.shl 15 15) := by decide

theorem witness_ReturnPopsTheReturnAddress : 0 < (State.reset.setSp 1).sp.val ∧ 0 < (State.reset.setSp 16).sp.val := by decide

theorem witness_StackUnderflowExactlyOnEmptyReturn :
    exec .ret State.reset = .fault (.stackUnderflow 0x200) ∧ step (holding 0x00EE) = .fault (.stackUnderflow 0x200) := ⟨rfl, rfl⟩

theorem witness_StackOverflowExactlyOnSeventeenthCall :
    exec (.call 0x300) (State.reset.setSp 16) = .fault (.stackOverflow 0x200) ∧
    step ((holding 0x2300).setSp 16) = .fault (.stackOverflow 0x200) := ⟨rfl, rfl⟩

/-- The jump to itself, and the jump to the last byte of memory. -/
theorem witness_JumpSetsPc : (0x200 : Addr).toNat = State.reset.pc.toNat ∧ State.reset.waitKey = none := by decide

theorem witness_CallPushesTheReturnAddress : State.reset.sp.val < 16 ∧ (State.reset.setSp 15).sp.val < 16 := by decide

theorem witness_CallThenReturnComesBack :
    let s := ((holding 0x2300).placeWord 0x300 0x00 0xEE).setSp 15
    s.waitKey = none ∧ s.fetchWord = some 0x2300 ∧ decodeWord 0x2300 = .ok (.call 0x300) ∧ s.sp.val < 16 ∧
      s.memRead 0x300 = some 0x00 ∧ s.memRead (0x300 + 1) = some 0xEE := by decide

/-- Both clauses of the skips on a value: a register that is the immediate, and one that is not. -/
theorem witness_SkipIfEqualImmediate : State.reset.reg 15 = 0 ∧ State.reset.reg 15 ≠ 0xFF := by decide

theorem witness_SkipIfNotEqualImmediate : State.reset.reg 15 ≠ 0xFF ∧ State.reset.reg 15 = 0 := by decide

theorem witness_SkipOnRegister : (State.reset.setReg 1 7).reg 1 ≠ (State.reset.setReg 1 7).reg 2 ∧
    State.reset.reg 1 = State.reset.reg 2 := by decide

theorem witness_JumpToItselfRests :
    let s := holding 0x1200
    s.waitKey = none ∧ s.fetchWord = some 0x1200 ∧ decodeWord 0x1200 = .ok (.jp 0x200) ∧ (0x200 : Addr).toNat = s.pc.toNat := by decide

/-- The one hypothesis of the arithmetic results: a destination that is not VF. -/
theorem witness_result_not_lost : (14 : Reg) ≠ 15 := by decide

theorem witness_ArithmeticIdentities :
    (14 : Reg) ≠ 15 ∧ exec (.sub 14 15) State.reset = .next ((State.reset.jump 0x202).setReg 15 1) ∧
    exec (.addReg 14 15) State.reset = .next (State.reset.jump 0x202) ∧
    exec (.shr 14 15) State.reset = .next (State.reset.jump 0x202) ∧
    exec (.shl 14 15) State.reset = .next (State.reset.jump 0x202) ∧
    (0 : Reg) ≠ 15 ∧ exec (.subn 14 0) State.reset = .next ((State.reset.jump 0x202).setReg 15 1) :=
  ⟨by decide, rfl, rfl, rfl, rfl, by decide, rfl⟩

theorem witness_RegistersChangeOnlyAsNamed :
    exec (.ldImm 3 7) State.reset = .next ((State.reset.jump 0x202).setReg 3 7) ∧
    ((State.reset.jump 0x202).setReg 3 7).reg 3 ≠ State.reset.reg 3 ∧
    exec (.sub 14 15) State.reset = .next ((State.reset.jump 0x202).setReg 15 1) ∧
    ((State.reset.jump 0x202).setReg 15 1).reg 15 ≠ State.reset.reg 15 ∧ writesFlag (.sub 14 15) = true :=
  ⟨rfl, by decide, rfl, by decide, by decide⟩

/-- The two ways the sprite bytes are readable: no byte at all with I at its highest value, and the last byte of memory. -/
theorem witness_DrawComplementsTheTouchedCells :
    ((0 : Rows).val = 0 ∨ (State.reset.setIndex 0xFFFF).index.toNat + ((0 : Rows).val - 1) ≤ 0xFFF) ∧
    ((1 : Rows).val = 0 ∨ (State.reset.setIndex 0xFFF).index.toNat + ((1 : Rows).val - 1) ≤ 0xFFF) := by decide

/-- A touched cell at the last corner that is lit, and a cell that is not touched. -/
theorem witness_DrawComplementsTheTouchedCells_touched :
    (Touches .clip 63 31 [0x80] 2047 ∧ (State.reset.setDisplay [2047]).pixel 2047 = true) ∧
    ¬ Touches .clip 63 31 [] 0 := by
  refine ⟨⟨⟨0, 0, 0x80, rfl, by decide, by decide, by simp [LandsOn]⟩, by decide⟩, ?_⟩
  rintro ⟨row, col, b, h, -⟩
  simp at h

theorem witness_DrawUnderEitherEdgePolicy : (List.replicate 15 (0xFF : Byte)).length ≤ 15 := by decide

theorem witness_EdgePoliciesAgreeInside :
    let s := (State.reset.setReg 1 56).setReg 2 31
    (s.reg 1).toNat ≤ 56 ∧ (s.reg 2).toNat + [(0xFF : Byte)].length ≤ 32 := by decide

/-- A first draw that lights a cell, and the state it leaves. -/
theorem witness_DrawTwiceRestoresTheDisplay :
    let s := (State.reset.placeWord 0x300 0x80 0).setIndex 0x300
    let t := (s.jump 0x202).setDisplay [0]
    exec (.drw 0 1 1) s = .next t ∧ KeepsDisplay t t ∧ KeepsMemory t t ∧ KeepsIndex t t ∧ t.reg 0 = s.reg 0 ∧
      t.reg 1 = s.reg 1 ∧ s.pixel 0 = false ∧ t.pixel 0 = true :=
  ⟨rfl, fun _ => rfl, fun _ => rfl, rfl, rfl, rfl, by decide, by decide⟩

/-- A first draw that touches nothing. -/
theorem witness_DrawTwiceRestoresTheDisplay_nothing :
    let t := State.reset.jump 0x202
    exec (.drw 0 1 0) State.reset = .next t ∧ ∀ c, t.pixel c = true → State.reset.pixel c = true :=
  ⟨rfl, fun _ h => h⟩

theorem witness_SkipOnKey : ((State.reset.setReg 1 15).reg 1).toNat = (15 : Key).val ∧
    15 < ((State.reset.setReg 1 16).reg 1).toNat := by decide

/-- Both clauses: no key, and key 15 alone. -/
theorem witness_AwaitingStepPollsTheKeypad :
    let s := State.reset.setWait (some 15)
    (s.waitKey = some 15 ∧ ∀ k, s.key k = false) ∧
    ((s.setKey 15 true).waitKey = some 15 ∧ (s.setKey 15 true).key 15 = true ∧ ∀ j, j < 15 → (s.setKey 15 true).key j = false) := by
  decide

theorem witness_WaitStateTransitions :
    (step (holding 0xF10A) = .next (((holding 0xF10A).jump 0x202).setWait (some 1)) ∧ (holding 0xF10A).waitKey = none) ∧
    (step (State.reset.setWait (some 1)) = .next (State.reset.setWait (some 1)) ∧
      (State.reset.setWait (some 1)).waitKey = some 1) := ⟨⟨rfl, rfl⟩, ⟨rfl, rfl⟩⟩

theorem witness_StoreDecimalDigits : (State.reset.setIndex 0xFFD).index.toNat + 2 ≤ 0xFFF := by decide

theorem witness_StoreRegisters : (State.reset.setIndex 0xFF0).index.toNat + (15 : Reg).val ≤ 0xFFF ∧
    (State.reset.setIndex 0xFFF).index.toNat + (0 : Reg).val ≤ 0xFFF ∧ (15 : Reg) ≤ 15 := by decide

theorem witness_LoadRegisters : (State.reset.setIndex 0xFF0).index.toNat + (15 : Reg).val ≤ 0xFFF ∧ (14 : Reg) < 15 ∧
    0xFFF < (State.reset.setIndex 0xFF1).index.toNat + (15 : Reg).val := by decide

/-- Each clause at its boundary: the first address that faults, the last that does not, and key number 16. -/
theorem witness_OutOfBoundsExactly :
    exec (.drw 0 1 2) (State.reset.setIndex 0xFFF) = .fault (.outOfBoundsAccess 0x200 .data) ∧
    exec (.ldB 0) (State.reset.setIndex 0xFFE) = .fault (.outOfBoundsAccess 0x200 .data) ∧
    exec (.ldMemVx 1) (State.reset.setIndex 0xFFF) = .fault (.outOfBoundsAccess 0x200 .data) ∧
    exec (.ldVxMem 0) (State.reset.setIndex 0x1000) = .fault (.outOfBoundsAccess 0x200 .data) ∧
    exec (.skp 1) (State.reset.setReg 1 16) = .fault (.outOfBoundsAccess 0x200 .keypad) ∧
    exec (.sknp 1) (State.reset.setReg 1 16) = .fault (.outOfBoundsAccess 0x200 .keypad) := ⟨rfl, rfl, rfl, rfl, rfl, rfl⟩

theorem witness_OtherInstructionsAlwaysComplete : canFault .cls = false := by decide

theorem witness_MemoryReadAfterWrite : (0xFFF : Nat) ≤ 0xFFF ∧ 0xFFF < (0x1000 : Nat) := by decide

theorem witness_PartsChangeOnlyByTheirWriters :
    exec (.ldI 0xFFF) State.reset = .next ((State.reset.jump 0x202).setIndex 0xFFF) := rfl

/-- A state with a live stack slot that has the invariant, and a step from it. -/
theorem witness_StepKeepsInvariant :
    let s := (((holding 0x2300).setSlot 0 0x1000).setSp 1).setDisplay [3, 2047]
    s.Inv ∧ ∃ t, step s = .next t ∧ t.sp = 2 := by
  refine ⟨⟨by decide, by decide, ?_⟩, _, rfl, rfl⟩
  intro k hk
  have : k = 0 := Fin.ext (by change k.val < 1 at hk; simp; omega)
  subst this
  decide

theorem witness_EnvironmentKeepsInvariant :
    State.reset.Inv ∧ hostAct Config.font .timerTick State.reset = .next State.reset ∧
    hostAct Config.font (.setKey 0 true) State.reset = .next (State.reset.setKey 0 true) ∧
    resetWith Config.font [] State.reset = .next State.reset :=
  ⟨⟨by decide, by decide, fun k hk => absurd hk (Nat.not_lt_zero _)⟩, rfl, rfl, rfl⟩

/-- Reachable states: the reset state, and one after an environment action. -/
theorem witness_ReachableStatesMeetInvariant : Reachable Config.font State.reset ∧ Reachable Config.font (State.reset.setKey 0 true) :=
  ⟨.start (rom := []) (s₀ := State.reset) rfl,
   .event (e := .act (.setKey 0 true)) (.start (rom := []) (s₀ := State.reset) rfl) rfl⟩

/-- ST11: the longest image that fits. -/
theorem witness_ResetState : (List.replicate 3584 (0 : Byte)).length ≤ 3584 :=
  Nat.le_of_eq List.length_replicate

/-- ST12: the shortest image that does not. -/
theorem witness_OverlongImageIsRefused : 3584 < (List.replicate 3585 (0 : Byte)).length :=
  Nat.lt_of_lt_of_eq (by decide) List.length_replicate.symm

theorem witness_SetKeyWritesOneKey : State.reset.key 15 = false := by decide

theorem witness_FaultsAreSticky : step State.reset = .fault (.invalidOpcode 0 0x200) := rfl

theorem witness_SoundTimerIsNeverRead :
    step (holding 0xF318) = .next ((holding 0xF318).jump 0x202) ∧ step State.reset = .fault (.invalidOpcode 0 0x200) := ⟨rfl, rfl⟩

end Sys2Proof.Tests
end

section
/-! PROOF. What a reset leaves in every piece of state (R35). -/

namespace Sys2Proof.Machine

/-! ## The reset state read through the accessors, whatever the counter of draws -/

namespace State

variable (n : Nat)

@[simp] theorem reset_reg (r : Reg) : ({ State.reset with draws := n } : State).reg r = 0 := Vector.getElem_replicate _

@[simp] theorem reset_slot (k : Fin 16) : ({ State.reset with draws := n } : State).slot k = 0 := Vector.getElem_replicate _

@[simp] theorem reset_key (k : Key) : ({ State.reset with draws := n } : State).key k = false := Vector.getElem_replicate _

@[simp] theorem reset_pixel (c : Pixel) : ({ State.reset with draws := n } : State).pixel c = false :=
  decide_eq_false List.not_mem_nil

end State

/-- Settles O53: the parts other than memory are those of the reset state, and memory is read off the four ranges of the one
equation `resetWith_cases` gives it. -/
theorem resetState : Obligations.ResetState := by
  refine ⟨resetWith_default State.reset, fun font rom s hl => ?_⟩
  rcases resetWith_cases font rom s with ⟨hlong, -⟩ | ⟨-, m, -, hnext, hread⟩
  · exact absurd hl (Nat.not_le_of_lt hlong)
  · refine ⟨_, hnext, by simp, rfl, rfl, by simp, rfl, rfl, rfl, by simp, by simp, rfl, ?font, ?gap, ?image, ?rest⟩ <;>
      intro a <;> rw [State.setMem_memRead, hread]
    case font => exact fun ha => if_pos ha
    case gap =>
      intro hlo hhi
      rw [if_neg (by omega), if_neg (by omega), if_pos (by omega)]
    case image =>
      intro hlo hhi
      rw [if_neg (by omega), if_pos ⟨hlo, hhi⟩]
    case rest =>
      intro hlo hhi
      rw [if_neg (by omega), if_neg (by omega), if_pos hhi]

end Sys2Proof.Machine
end

section
/-! PROOF. The fetched word, read off memory (R53). -/

namespace Sys2Proof.Machine

/-- Settles O2: below the fetch bound the word is `wordOfBytes` of the cells at pc and pc + 1, and no bit of either byte is lost
in its 16. -/
theorem fetchIsBigEndian : Obligations.FetchIsBigEndian := by
  intro s hpc
  rcases s.fetchWord_cases with ⟨hout, -⟩ | ⟨-, hfetch⟩
  · exact absurd hout (Nat.not_le_of_lt (Nat.lt_succ_of_le hpc))
  · exact ⟨_, _, _, hfetch, Memory.read_of_le (by omega), Memory.read_of_le (by omega), wordOfBytes_toNat _ _⟩

end Sys2Proof.Machine
end

section
/-! PROOF. A Running step adds nothing around the instruction it decodes (R93). -/

namespace Sys2Proof.Machine

/-- Where both bytes at pc and pc + 1 can be read, the fetch gives their word (R53). -/
theorem State.fetchWord_of_memRead {s : State} {hi lo : Byte} (hhi : s.memRead s.pc.toNat = some hi)
    (hlo : s.memRead (s.pc.toNat + 1) = some lo) : s.fetchWord = some (wordOfBytes hi lo) := by
  simp [fetchWord, hhi, hlo]

/-- Settles O1: the fetched word is the one at pc, so of the three things `step_running` leaves a Running step, the fetch fault
is out, and what the word decodes to picks one of the other two. -/
theorem runningStepRunsTheDecodedInstruction : Obligations.RunningStepRunsTheDecodedInstruction := by
  intro s hi lo hrun hhi hlo
  have hword := State.fetchWord_of_memRead hhi hlo
  rcases step_running hrun with ⟨hnone, -⟩ | ⟨op, e, hop, hinvalid, hstep⟩ | ⟨op, i, hop, hdecode, hstep⟩
  · cases hword.symm.trans hnone
  · obtain rfl : wordOfBytes hi lo = op := Option.some.inj (hword.symm.trans hop)
    exact ⟨fun i hdecode => (nomatch hinvalid.symm.trans hdecode), fun _ _ => hstep⟩
  · obtain rfl : wordOfBytes hi lo = op := Option.some.inj (hword.symm.trans hop)
    refine ⟨fun j hj => ?_, fun e hinvalid => (nomatch hdecode.symm.trans hinvalid)⟩
    obtain rfl : i = j := Except.ok.inj (hdecode.symm.trans hj)
    exact hstep

end Sys2Proof.Machine
end

section
/-! PROOF. The skip on an immediate (R104). -/

namespace Sys2Proof

/-- The word 3xkk decodes to SE Vx, kk (R77): its top digit selects the arm, and the operands read back. -/
theorem decodeWord_formatRI_3 (x : Reg) (kk : Byte) : decodeWord (formatRI 0x3 x kk) = .ok (.seImm x kk) := by
  simp [decodeWord, decodeWordWith]

end Sys2Proof

namespace Sys2Proof.Machine

/-- A skip changes pc alone, whether it is taken or not. -/
theorem onlyPc_skipIf (s : State) (c : Bool) : OnlyPc s (s.skipIf c) := by
  rw [State.skipIf_eq]
  exact onlyPc_jump s _

/-- What SE Vx, kk does, in every state: the skip on Vx = kk. -/
theorem exec_seImm (x : Reg) (kk : Byte) (s : State) : exec (.seImm x kk) s = .next (s.skipIf (s.reg x == kk)) := rfl

/-- Settles O15: the word is in format RI with 3 as its top digit, and the state after is a skip, so the frame is the skip's and
its condition, Vx = kk, picks between the two values of pc. -/
theorem skipIfEqualImmediate : Obligations.SkipIfEqualImmediate := by
  intro x kk s
  refine ⟨decodeWord_formatRI_3 x kk, _, exec_seImm x kk s, onlyPc_skipIf s _, fun heq => ?taken, fun hne => ?notTaken⟩
  case taken => simp [heq]
  case notTaken => simp [hne]

end Sys2Proof.Machine
end

section
/-! PROOF. The load of an immediate (R121), by what every operation that writes one register does. -/

namespace Sys2Proof

/-- The word 6xkk decodes to LD Vx, kk (R77): its top digit selects the arm, and the operands read back. -/
theorem decodeWord_formatRI_6 (x : Reg) (kk : Byte) : decodeWord (formatRI 0x6 x kk) = .ok (.ldImm x kk) := by
  simp [decodeWord, decodeWordWith]

end Sys2Proof

namespace Sys2Proof.Machine

/-- A write of one register after a jump keeps every other register. -/
theorem keepsRegsBut_setReg (s : State) (w : Word) (x : Reg) (b : Byte) : KeepsRegsBut [x] s ((s.jump w).setReg x b) := by
  intro r hr
  have hne : r ≠ x := fun heq => hr (List.mem_singleton.mpr heq)
  rw [State.setReg_reg, if_neg hne, State.jump_reg]

/-- What an operation that writes its result to Vx does: it completes with the result in Vx and pc 2 on, and keeps the rest. -/
theorem writeResult_next (x : Reg) (r : Byte) (s : State) :
    ∃ t, writeResult x r s = .next t ∧ t.pc = s.pc + 2 ∧ t.reg x = r ∧ KeepsRegsBut [x] s t ∧ OnlyRegsAndPc s t :=
  ⟨_, rfl, rfl, by simp, keepsRegsBut_setReg s _ x r, onlyRegsAndPc_setReg s _ x r⟩

/-- What LD Vx, kk does, in every state: the write of kk to Vx. -/
theorem exec_ldImm (x : Reg) (kk : Byte) (s : State) : exec (.ldImm x kk) s = writeResult x kk s := rfl

/-- Settles O20: the word is in format RI with 6 as its top digit, and the instruction writes kk to Vx. -/
theorem loadImmediate : Obligations.LoadImmediate := by
  intro x kk s
  refine ⟨decodeWord_formatRI_6 x kk, ?_⟩
  rw [exec_ldImm]
  exact writeResult_next x kk s

end Sys2Proof.Machine
end

section
/-! PROOF. The clear of the display (R140). -/

namespace Sys2Proof

/-- The word 00E0 decodes to CLS (R77). -/
theorem decodeWord_00E0 : decodeWord 0x00E0 = .ok .cls := by decide

end Sys2Proof

namespace Sys2Proof.Machine

/-- A display with no lit cell reads as 0 everywhere. -/
theorem State.setDisplay_nil_pixel (s : State) (c : Pixel) : (s.setDisplay []).pixel c = false := by
  rw [setDisplay_pixel]
  exact decide_eq_false List.not_mem_nil

/-- What CLS does, in every state: pc goes on and the display becomes the one with no lit cell. -/
theorem exec_cls (s : State) : exec .cls s = .next ((s.jump s.npc).setDisplay []) := rfl

/-- Settles O31: CLS is a jump and then the empty display, so every part but the display is kept as the jump keeps it. -/
theorem clearZeroesEveryCell : Obligations.ClearZeroesEveryCell := by
  refine ⟨decodeWord_00E0, fun s => ?_⟩
  obtain ⟨hregs, hrest⟩ := onlyPc_jump s s.npc
  exact ⟨_, exec_cls s, s.npc_def, State.setDisplay_nil_pixel _, hregs, hrest.index, hrest.stack, hrest.timers, hrest.keypad,
    hrest.wait, hrest.memory, hrest.draws⟩

end Sys2Proof.Machine
end

section
/-! PROOF. The write of one key (R193). -/

namespace Sys2Proof.Machine

namespace State

variable (s : State) (k : Key)

/-- Of two writes of one key, the second is the one that is seen. -/
theorem setKey_setKey (p q : Bool) : (s.setKey k p).setKey k q = s.setKey k q := by
  simp [setKey]

/-- A key written with the value it has leaves the state as it is. -/
theorem setKey_key_self : s.setKey k (s.key k) = s := by
  simp [setKey, key]

end State

/-- What the host's `set_key` does, in every state: the write of the one key. -/
theorem hostAct_setKey (font : Config.Font) (k : Key) (p : Bool) (s : State) :
    hostAct font (.setKey k p) s = .next (s.setKey k p) := rfl

/-- Pressing and releasing a key that was up undoes itself: the release overwrites the press with the value the key had. -/
theorem State.setKey_press_release {s : State} {k : Key} (hup : s.key k = false) : (s.setKey k true).setKey k false = s := by
  calc (s.setKey k true).setKey k false
    _ = s.setKey k (s.key k) := by rw [s.setKey_setKey, hup]
    _ = s := s.setKey_key_self k

/-- Settles O55: the state after is `setKey`, so the keys are read by `setKey_key` and every other part is the one of `s`. -/
theorem setKeyWritesOneKey : Obligations.SetKeyWritesOneKey := by
  intro font k pressed s
  refine ⟨⟨_, hostAct_setKey font k pressed s, ?written, ?others, s.setKey_pc k pressed, s.setKey_reg k pressed,
    s.setKey_index k pressed, ⟨s.setKey_sp k pressed, s.setKey_slot k pressed⟩, ⟨s.setKey_dt k pressed, s.setKey_st k pressed⟩,
    s.setKey_pixel k pressed, s.setKey_waitKey k pressed, s.setKey_memRead k pressed, s.setKey_draws k pressed⟩, ?undone⟩
  case written => rw [State.setKey_key, if_pos rfl]
  case others =>
    intro j hne
    rw [State.setKey_key, if_neg hne]
  case undone =>
    intro hup
    refine ⟨_, hostAct_setKey font k true s, ?_⟩
    rw [hostAct_setKey, State.setKey_press_release hup]

end Sys2Proof.Machine
end

section
/-! PROOF. The decoder undoes the encoder, and every format written out as the opcode table writes it (R72, R77). -/

namespace Sys2Proof

theorem rowsOf_ofFin (n : Rows) : rowsOf (BitVec.ofFin n) = n := rfl

/-- Decoding undoes encoding (R77): the top digit of the word selects the arm, its low nibble or byte the sub-opcode, and the
operands read back. Only rows 20 and 21 ask for the parameter `HAS_A_B`. -/
theorem decodeWordWith_encode {ab : Bool} {i : Instr} (hwf : i.wellFormedWith ab = true) :
    decodeWordWith ab (encode i) = .ok i := by
  cases i with
  | cls | ret => rfl
  | ldI nnn | jpV0 nnn =>
    obtain rfl : ab = true := hwf
    simp [encode, decodeWordWith]
  | jp | call | seImm | sneImm | ldImm | addImm | rnd | seReg | sneReg | drw =>
    simp [encode, decodeWordWith, rowsOf_ofFin]
  | ldReg | orReg | andReg | xorReg | addReg | sub | shr | subn | shl => simp [encode, decodeWordWith, decode8]
  | skp | sknp => simp [encode, decodeWordWith, decodeE]
  | ldVxDt | ldVxK | ldDtVx | ldStVx | addI | ldF | ldB | ldMemVx | ldVxMem => simp [encode, decodeWordWith, decodeF]

/-- The decoder of this machine undoes the encoder: here every instruction is well-formed, since `HAS_A_B` is true. -/
theorem decodeWord_encode (i : Instr) : decodeWord (encode i) = .ok i :=
  decodeWordWith_encode (by cases i <;> rfl)

/-- Formats RI and RS with the sub-opcode before the register index. -/
theorem formatRI_eq_ofNat (p : BitVec 4) (x : Reg) (kk : Byte) :
    formatRI p x kk = BitVec.ofNat 16 (p.toNat * 4096 + kk.toNat + x.val * 256) :=
  congrArg (BitVec.ofNat 16) (by omega)

/-- Formats RR and RRN with the low nibble before the register indices. -/
theorem formatRR_eq_ofNat (p : BitVec 4) (x y : Reg) (n : BitVec 4) :
    formatRR p x y n = BitVec.ofNat 16 (p.toNat * 4096 + n.toNat + x.val * 256 + y.val * 16) :=
  congrArg (BitVec.ofNat 16) (by omega)

/-- Settles O5: `decodeWordWith_encode` on words; the two bytes of a word make that word again, so it holds on bytes too. -/
theorem decodeOfEncodeIsIdentity : Obligations.DecodeOfEncodeIsIdentity := by
  refine ⟨fun ab i hwf => decodeWordWith_encode hwf, fun i rest _ => ?_⟩
  simp [encodeBytes, decodeBytes_cons, wordOfBytes_split, decodeWord_encode]

/-- Settles O4: each word is the encoding of its instruction, and 0x0000 is none of the two valid words of family 0. -/
theorem writtenOutWordsDecode : Obligations.WrittenOutWordsDecode :=
  ⟨decodeWord_encode .cls, decodeWord_encode .ret, decodeWord_encode (.jp 0xABC), decodeWord_encode (.seImm 10 0xFF),
    decodeWord_encode (.seReg 10 11), decodeWord_encode (.subn 1 2), decodeWord_encode (.shl 1 2),
    decodeWord_encode (.ldI 0x123), decodeWord_encode (.drw 1 2 5), decodeWord_encode (.sknp 1),
    decodeWord_encode (.ldVxMem 1), (decode0_invalid 0x0000).mpr ⟨by decide, by decide⟩⟩

end Sys2Proof
end

section
/-! PROOF. What a word decodes to is encoded as that word (R77). -/

namespace Sys2Proof

/-- A word with known format-A fields is that format. -/
theorem formatA_of_fieldP {op : Word} {p : BitVec 4} (hp : fieldP op = p) : formatA p (fieldNNN op) = op :=
  hp ▸ formatA_fields op

theorem formatRI_of_fieldP {op : Word} {p : BitVec 4} (hp : fieldP op = p) : formatRI p (fieldX op) (fieldKK op) = op :=
  hp ▸ formatRI_fields op

theorem formatRI_of_fieldKK {op : Word} {p : BitVec 4} {kk : Byte} (hp : fieldP op = p) (hk : fieldKK op = kk) :
    formatRI p (fieldX op) kk = op :=
  hk ▸ formatRI_of_fieldP hp

theorem formatRR_of_fieldN {op : Word} {p n : BitVec 4} (hp : fieldP op = p) (hn : fieldN op = n) :
    formatRR p (fieldX op) (fieldY op) n = op :=
  hn ▸ hp ▸ formatRR_fields op

theorem ofNat_rowsOf (n : BitVec 4) : BitVec.ofNat 4 (rowsOf n).val = n := by
  rw [rowsOf_val, BitVec.ofNat_toNat, BitVec.setWidth_eq]

/-- The instruction of a word of family 0, which is `CLS` or `RET`. -/
theorem encode_of_decode0 {op : Word} {i : Instr} (ab : Bool) (h : decode0 op = .ok i) :
    encode i = op ∧ i.wellFormedWith ab = true := by
  unfold decode0 at h
  split at h
  · next hop => cases h; exact ⟨hop.symm, rfl⟩
  · split at h
    · next hop => cases h; exact ⟨hop.symm, rfl⟩
    · cases h

/-- The instruction of a word of family 8, by the low nibble. -/
theorem encode_of_decode8 {op : Word} {i : Instr} (ab : Bool) (hp : fieldP op = 0x8) (h : decode8 op = .ok i) :
    encode i = op ∧ i.wellFormedWith ab = true := by
  unfold decode8 at h
  split at h <;> cases h
  all_goals next hn => exact ⟨formatRR_of_fieldN hp hn, rfl⟩

/-- The instruction of a word of family E, by the low byte. -/
theorem encode_of_decodeE {op : Word} {i : Instr} (ab : Bool) (hp : fieldP op = 0xE) (h : decodeE op = .ok i) :
    encode i = op ∧ i.wellFormedWith ab = true := by
  unfold decodeE at h
  split at h <;> cases h
  all_goals next hk => exact ⟨formatRI_of_fieldKK hp hk, rfl⟩

/-- The instruction of a word of family F, by the low byte. -/
theorem encode_of_decodeF {op : Word} {i : Instr} (ab : Bool) (hp : fieldP op = 0xF) (h : decodeF op = .ok i) :
    encode i = op ∧ i.wellFormedWith ab = true := by
  unfold decodeF at h
  split at h <;> cases h
  all_goals next hk => exact ⟨formatRI_of_fieldKK hp hk, rfl⟩

/-- Settles O6: by the family of the word; in each arm the format of the instruction is put together from the word's own
fields. -/
theorem encodeOfDecodeIsIdentity : Obligations.EncodeOfDecodeIsIdentity := by
  intro ab op i h
  unfold decodeWordWith at h
  split at h <;> rename_i hp
  case h_1 => exact encode_of_decode0 ab h
  case h_9 => exact encode_of_decode8 ab hp h
  case h_15 => exact encode_of_decodeE ab hp h
  case h_16 => exact encode_of_decodeF ab hp h
  case h_2 | h_3 => cases h; exact ⟨formatA_of_fieldP hp, rfl⟩
  case h_4 | h_5 | h_7 | h_8 | h_13 => cases h; exact ⟨formatRI_of_fieldP hp, rfl⟩
  case h_6 | h_10 =>
    split at h <;> cases h
    next hn => exact ⟨formatRR_of_fieldN hp hn, rfl⟩
  case h_11 | h_12 =>
    split at h <;> cases h
    next hab => exact ⟨formatA_of_fieldP hp, hab⟩
  case h_14 => cases h; exact ⟨formatRR_of_fieldN hp (ofNat_rowsOf _).symm, rfl⟩
  case h_17 => cases h

end Sys2Proof
end

section
/-! PROOF. The invalid words, family by family (R79). -/

namespace Sys2Proof

theorem fieldN_eq_zero_iff (op : Word) : fieldN op = 0x0#4 ↔ op.toNat % 16 = 0 := by
  rw [← BitVec.toNat_inj, fieldN_toNat]; rfl

/-- Settles O8: the top digit selects the family, and of each family the invalid words are known. -/
theorem invalidWordsAreThoseListed : Obligations.InvalidWordsAreThoseListed := by
  intro op
  have hp := fieldP_toNat op
  unfold decodeWord decodeWordWith
  split <;> rename_i h
  case h_17 =>
    exfalso -- the sixteen values of the top digit are all listed
    simp only [imp_false] at *
    bv_omega
  all_goals rw [h] at hp
  case h_1 => simp [← hp, decode0_invalid]
  case h_9 => simp [← hp, decode8_invalid]
  case h_15 => simp [← hp, decodeE_invalid]
  case h_16 => simp [← hp, decodeF_invalid]
  case h_6 | h_10 => simp [← hp, fieldN_eq_zero_iff]
  case h_11 | h_12 => simp [← hp, Config.hasAB]
  all_goals simp [← hp]

end Sys2Proof
end

section
/-! PROOF. The decoder and the opcode table select the same words (R77). -/

namespace Sys2Proof

open Laws.EncodesRow in
/-- The word of every instruction selects the instruction's own row. -/
theorem row_selects_encode (i : Instr) : i.row.selects (encode i) := by
  cases i with
  | cls => exact cls
  | ret => exact ret
  | jp nnn => exact jp nnn
  | call nnn => exact call nnn
  | seImm x kk => exact seImm x kk
  | sneImm x kk => exact sneImm x kk
  | seReg x y => exact seReg x y
  | ldImm x kk => exact ldImm x kk
  | addImm x kk => exact addImm x kk
  | ldReg x y => exact ldReg x y
  | orReg x y => exact orReg x y
  | andReg x y => exact andReg x y
  | xorReg x y => exact xorReg x y
  | addReg x y => exact addReg x y
  | sub x y => exact sub x y
  | shr x y => exact shr x y
  | subn x y => exact subn x y
  | shl x y => exact shl x y
  | sneReg x y => exact sneReg x y
  | ldI nnn => exact ldI nnn
  | jpV0 nnn => exact jpV0 nnn
  | rnd x kk => exact rnd x kk
  | drw x y n => exact drw x y n
  | skp x => exact skp x
  | sknp x => exact sknp x
  | ldVxDt x => exact ldVxDt x
  | ldVxK x => exact ldVxK x
  | ldDtVx x => exact ldDtVx x
  | ldStVx x => exact ldStVx x
  | addI x => exact addI x
  | ldF x => exact ldF x
  | ldB x => exact ldB x
  | ldMemVx x => exact ldMemVx x
  | ldVxMem x => exact ldVxMem x

theorem row_mem_tableRows (i : Instr) : i.row ∈ tableRows := by
  have hlt : i.rowIndex < tableRows.length := by
    rw [show tableRows.length = 34 from rfl]
    cases i <;> simp [Instr.rowIndex]
  rw [Instr.row, List.getD_eq_getElem _ _ hlt]
  exact List.getElem_mem hlt

/-- The only thing the decoder rejects is the word itself. -/
theorem decodeWord_error {op : Word} {e : DecodeError} (h : decodeWord op = .error e) : e = .invalidWord op := by
  unfold decodeWord decodeWordWith decode0 decode8 decodeE decodeF at h
  (repeat' split at h) <;> cases h <;> rfl

theorem decodes_iff_not_invalid (op : Word) :
    (∃ i, decodeWord op = .ok i) ↔ decodeWord op ≠ .error (.invalidWord op) := by
  cases h : decodeWord op with
  | ok i => simp
  | error e => simp [decodeWord_error h]

/-- The rows of the table, by the bits their masks fix: the whole word, the top digit, the top digit and the low nibble, the top
digit and the low byte. -/
theorem tableRows_cases : ∀ r ∈ tableRows,
    (r.mask = 0xFFFF#16 ∧ r.pattern.toNat ∈ [0x00E0, 0x00EE]) ∨
    (r.mask = 0xF000#16 ∧
      r.pattern.toNat ∈ [0x1000, 0x2000, 0x3000, 0x4000, 0x6000, 0x7000, 0xA000, 0xB000, 0xC000, 0xD000]) ∨
    (r.mask = 0xF00F#16 ∧ r.pattern.toNat ∈
      [0x5000, 0x8000, 0x8001, 0x8002, 0x8003, 0x8004, 0x8005, 0x8006, 0x8007, 0x800E, 0x9000]) ∨
    (r.mask = 0xF0FF#16 ∧ r.pattern.toNat ∈
      [0xE09E, 0xE0A1, 0xF007, 0xF00A, 0xF015, 0xF018, 0xF01E, 0xF029, 0xF033, 0xF055, 0xF065]) := by
  decide

theorem and_FFFF (op : Word) : op &&& 0xFFFF#16 = op := BitVec.and_allOnes

/-- A word that a row selects is none of the invalid words: its fixed bits are the row's pattern. -/
theorem not_invalid_of_selects {r : Row} {op : Word} (hr : r ∈ tableRows) (h : r.selects op) :
    decodeWord op ≠ .error (.invalidWord op) := by
  have hfix : (op &&& r.mask).toNat = r.pattern.toNat := congrArg BitVec.toNat h
  rw [Ne, invalidWordsAreThoseListed op]
  rcases tableRows_cases r hr with ⟨hm, hp⟩ | ⟨hm, hp⟩ | ⟨hm, hp⟩ | ⟨hm, hp⟩
  all_goals
    rw [← hfix, hm] at hp
    simp only [and_FFFF, and_F000, and_F00F, and_F0FF, List.mem_cons, List.not_mem_nil, or_false] at hp ⊢
    omega

/-- Where two rows select one word, the fixed bits of the one agree with those of the other on the bits both fix. -/
theorem pattern_and_mask_of_selects {r q : Row} {op : Word} (hr : r.selects op) (hq : q.selects op) :
    r.pattern &&& q.mask = q.pattern &&& r.mask := by
  rw [← hr, ← hq, BitVec.and_assoc, BitVec.and_assoc, BitVec.and_comm r.mask]

/-- Any two different rows of the table differ in a bit that both fix. -/
theorem row_eq_of_pattern_and_mask :
    ∀ r ∈ tableRows, ∀ q ∈ tableRows, r.pattern &&& q.mask = q.pattern &&& r.mask → r = q := by
  decide

/-- Settles O7: a word that decodes is encoded from what it decodes to, so that row selects it; a word some row selects is none of
the invalid ones; and two rows that select one word agree on the bits both fix, which only equal rows do. -/
theorem decodeAgreesWithTheTable : Obligations.DecodeAgreesWithTheTable := by
  intro op
  have hrow : ∀ i, decodeWord op = .ok i → i.row.selects op := fun i hi =>
    (encodeOfDecodeIsIdentity _ op i hi).1 ▸ row_selects_encode i
  refine ⟨⟨?decodes, ?selected⟩, ?disjoint, hrow⟩
  case decodes => exact fun ⟨i, hi⟩ => ⟨i.row, row_mem_tableRows i, hrow i hi⟩
  case selected => exact fun ⟨r, hr, hsel⟩ => (decodes_iff_not_invalid op).mpr (not_invalid_of_selects hr hsel)
  case disjoint =>
    exact fun r hr q hq hrs hqs => row_eq_of_pattern_and_mask r hr q hq (pattern_and_mask_of_selects hrs hqs)

end Sys2Proof
end

section
/-! PROOF. What an instruction can do, said once: the faults it raises and, where it completes, the parts of the state it changes
(R38, R182 to R185). -/

namespace Sys2Proof.Machine

/-! ## The two stores at I, with the number of their bytes worked out -/

/-- `LD B` (R166): a fault where I + 2 is above 0xFFF, else the three digits are stored. -/
theorem execLdB_cases (x : Reg) (s : State) :
    (0xFFF < s.index.toNat + 2 ∧ execLdB x s = .fault (.outOfBoundsAccess s.pc .data)) ∨
    (s.index.toNat + 2 ≤ 0xFFF ∧ ∃ m, (s.mem.wf → m.wf) ∧
      (∀ a, m.read a = if s.index.toNat ≤ a ∧ a < s.index.toNat + 3 then (bcdDigits (s.reg x))[a - s.index.toNat]?
        else s.memRead a) ∧
      execLdB x s = .next ((s.setMem m).advance)) :=
  (storeBytes_cases (bcdDigits (s.reg x)) s).imp (fun ⟨_, hout, hexec⟩ => ⟨hout, hexec⟩)
    (fun ⟨hin, hm⟩ => ⟨hin.resolve_left (List.cons_ne_nil _ _), hm⟩)

/-- `LD [I]` (R167): a fault where I + x is above 0xFFF, else V0 to Vx are stored. -/
theorem execLdMemVx_cases (x : Reg) (s : State) :
    (0xFFF < s.index.toNat + x.val ∧ execLdMemVx x s = .fault (.outOfBoundsAccess s.pc .data)) ∨
    (s.index.toNat + x.val ≤ 0xFFF ∧ ∃ m, (s.mem.wf → m.wf) ∧
      (∀ a, m.read a = if s.index.toNat ≤ a ∧ a < s.index.toNat + (x.val + 1) then (s.regsTo x)[a - s.index.toNat]?
        else s.memRead a) ∧
      execLdMemVx x s = .next ((s.setMem m).advance)) := by
  have h := storeBytes_cases (s.regsTo x) s
  rw [State.regsTo_length, Nat.add_sub_cancel] at h
  exact h.imp (fun ⟨_, hout, hexec⟩ => ⟨hout, hexec⟩)
    (fun ⟨hin, hm⟩ => ⟨hin.resolve_left (s.regsTo_ne_nil x), hm⟩)

/-! ## Faults -/

/-- The instruction raises the fault in the state `s`: the table of R185. -/
inductive Raises (s : State) : Instr → Fault → Prop where
  | emptyReturn : s.sp = 0 → Raises s .ret (.stackUnderflow s.pc)
  | fullCall (nnn : Addr) : s.sp = 16 → Raises s (.call nnn) (.stackOverflow s.pc)
  | spriteOutside (x y : Reg) (n : Rows) : 0 < n.val → 0xFFF < s.index.toNat + (n.val - 1) →
      Raises s (.drw x y n) (.outOfBoundsAccess s.pc .data)
  | digitsOutside (x : Reg) : 0xFFF < s.index.toNat + 2 → Raises s (.ldB x) (.outOfBoundsAccess s.pc .data)
  | storeOutside (x : Reg) : 0xFFF < s.index.toNat + x.val → Raises s (.ldMemVx x) (.outOfBoundsAccess s.pc .data)
  | loadOutside (x : Reg) : 0xFFF < s.index.toNat + x.val → Raises s (.ldVxMem x) (.outOfBoundsAccess s.pc .data)
  | noKeySkp (x : Reg) : 15 < (s.reg x).toNat → Raises s (.skp x) (.outOfBoundsAccess s.pc .keypad)
  | noKeySknp (x : Reg) : 15 < (s.reg x).toNat → Raises s (.sknp x) (.outOfBoundsAccess s.pc .keypad)

/-- An instruction that raises a fault in a state answers it there. -/
theorem exec_of_raises {i : Instr} {s : State} {f : Fault} (h : Raises s i f) : exec i s = .fault f := by
  cases h with
  | emptyReturn h =>
    rcases execRet_cases s with ⟨-, hexec⟩ | ⟨hpos, -⟩
    · exact hexec
    · simp [h] at hpos
  | fullCall nnn h =>
    rcases execCall_cases nnn s with ⟨-, hexec⟩ | ⟨hlt, -⟩
    · exact hexec
    · simp [h] at hlt
  | spriteOutside x y n hpos hout =>
    rcases execDrw_cases x y n s with ⟨-, -, hexec⟩ | ⟨hin, -⟩
    · exact hexec
    · omega
  | digitsOutside x hout => exact ((execLdB_cases x s).resolve_right fun ⟨hin, _⟩ => Nat.not_lt_of_le hin hout).2
  | storeOutside x hout => exact ((execLdMemVx_cases x s).resolve_right fun ⟨hin, _⟩ => Nat.not_lt_of_le hin hout).2
  | loadOutside x hout => exact ((execLdVxMem_cases x s).resolve_right fun ⟨hin, _⟩ => Nat.not_lt_of_le hin hout).2
  | noKeySkp x hout => exact ((execSkp_cases x s).resolve_right fun ⟨hin, _⟩ => Nat.not_lt_of_le hout hin).2
  | noKeySknp x hout => exact ((execSknp_cases x s).resolve_right fun ⟨hin, _⟩ => Nat.not_lt_of_le hout hin).2

/-- The eight instructions of R185 are the only ones that raise. -/
theorem canFault_of_raises {i : Instr} {s : State} {f : Fault} (h : Raises s i f) : canFault i = true := by
  cases h <;> rfl

/-- The faults read sp, pc, I and the registers of the state, and nothing else. -/
theorem Raises.congr {i : Instr} {s s' : State} {f : Fault} (hsp : s'.sp = s.sp) (hpc : s'.pc = s.pc)
    (hindex : s'.index = s.index) (hreg : ∀ r, s'.reg r = s.reg r) (h : Raises s i f) : Raises s' i f := by
  cases h <;> rw [← hpc]
  case emptyReturn h => exact .emptyReturn (hsp.trans h)
  case fullCall nnn h => exact .fullCall nnn (hsp.trans h)
  case spriteOutside x y n hpos hout => exact .spriteOutside x y n hpos (hindex ▸ hout)
  case digitsOutside x hout => exact .digitsOutside x (hindex ▸ hout)
  case storeOutside x hout => exact .storeOutside x (hindex ▸ hout)
  case loadOutside x hout => exact .loadOutside x (hindex ▸ hout)
  case noKeySkp x hout => exact .noKeySkp x (hreg x ▸ hout)
  case noKeySknp x hout => exact .noKeySknp x (hreg x ▸ hout)

/-! ## Changes -/

/-- The state an instruction that completes in `s` can leave: which parts it changes, and of the parts the invariant speaks of,
what it changes them to. -/
inductive Effect (s : State) : Instr → State → Prop where
  | clear : Effect s .cls ((s.jump s.npc).setDisplay [])
  | ret (h : 0 < s.sp.val) :
      Effect s .ret ((s.setSp ⟨s.sp.val - 1, by omega⟩).jump (s.slot ⟨s.sp.val - 1, by omega⟩))
  | call (nnn : Addr) (h : s.sp.val < 16) :
      Effect s (.call nnn) (((s.setSlot ⟨s.sp.val, h⟩ s.npc).setSp ⟨s.sp.val + 1, by omega⟩).jump (zextAddr nnn))
  | jump {i : Instr} (w : Word) : writesFlag i = false → Effect s i (s.jump w)
  | result {i : Instr} {x : Reg} (r : Byte) : namesDest i x → writesFlag i = false → Effect s i ((s.jump s.npc).setReg x r)
  | resultFlag {i : Instr} {x : Reg} (r : Byte) (c : Bool) : namesDest i x → writesFlag i = true →
      Effect s i (((s.jump s.npc).setReg x r).setReg vf (flagOf c))
  | random (x : Reg) (kk r : Byte) : Effect s (.rnd x kk) ((s.nextDraw.jump s.npc).setReg x r)
  | draw (x y : Reg) (n : Rows) (cells : List Pixel) (c : Bool) :
      Effect s (.drw x y n) (((s.jump s.npc).setDisplay (drawCells s.display false cells).1).setReg vf (flagOf c))
  | index {i : Instr} (w : Word) : ((∃ nnn, i = .ldI nnn) ∨ ∃ x, i = .addI x ∨ i = .ldF x) →
      Effect s i ((s.jump s.npc).setIndex w)
  | delay (x : Reg) (b : Byte) : Effect s (.ldDtVx x) ((s.jump s.npc).setDt b)
  | sound (x : Reg) (b : Byte) : Effect s (.ldStVx x) ((s.jump s.npc).setSt b)
  | wait (x : Reg) : Effect s (.ldVxK x) ((s.jump s.npc).setWait (some x))
  | store {i : Instr} (m : Memory) : (∃ x, i = .ldB x ∨ i = .ldMemVx x) → (s.mem.wf → m.wf) →
      Effect s i ((s.setMem m).jump s.npc)
  | load (x : Reg) (bs : List Byte) : bs.length = x.val + 1 → Effect s (.ldVxMem x) ((s.jump s.npc).setRegs bs)

theorem Effect.skip {i : Instr} {s : State} (c : Bool) (h : writesFlag i = false) : Effect s i (s.skipIf c) := by
  rw [State.skipIf_eq]
  exact .jump _ h

theorem Effect.drawSprite (x y : Reg) (n : Rows) (rows : List Byte) (s : State) :
    Effect s (.drw x y n) (drawSprite Config.edgePolicy x y rows s.advance) := by
  rw [drawSprite_eq, State.setFlag_eq]
  exact .draw ..

/-- An instruction raises a fault or completes with one of the changes listed; none is refused. -/
theorem exec_cases (i : Instr) (s : State) :
    (∃ f, Raises s i f ∧ exec i s = .fault f) ∨ (∃ t, Effect s i t ∧ exec i s = .next t) := by
  cases i with
  | cls => exact .inr ⟨_, .clear, rfl⟩
  | jp | jpV0 => exact .inr ⟨_, .jump _ rfl, rfl⟩
  | seImm | sneImm | seReg | sneReg => exact .inr ⟨_, .skip _ rfl, rfl⟩
  | ldImm | addImm | ldReg | orReg | andReg | xorReg | ldVxDt => exact .inr ⟨_, .result _ rfl rfl, rfl⟩
  | addReg | sub | shr | subn | shl => exact .inr ⟨_, .resultFlag _ _ rfl rfl, rfl⟩
  | rnd x kk => exact .inr ⟨_, .random x kk _, rfl⟩
  | ldI nnn => exact .inr ⟨_, .index _ (.inl ⟨nnn, rfl⟩), rfl⟩
  | addI x => exact .inr ⟨_, .index _ (.inr ⟨x, .inl rfl⟩), rfl⟩
  | ldF x => exact .inr ⟨_, .index _ (.inr ⟨x, .inr rfl⟩), rfl⟩
  | ldDtVx x => exact .inr ⟨_, .delay x _, rfl⟩
  | ldStVx x => exact .inr ⟨_, .sound x _, rfl⟩
  | ldVxK x => exact .inr ⟨_, .wait x, rfl⟩
  | ret => exact (execRet_cases s).imp (fun ⟨h, e⟩ => ⟨_, .emptyReturn h, e⟩) (fun ⟨h, e⟩ => ⟨_, .ret h, e⟩)
  | call nnn =>
    exact (execCall_cases nnn s).imp (fun ⟨h, e⟩ => ⟨_, .fullCall nnn h, e⟩) (fun ⟨h, e⟩ => ⟨_, .call nnn h, e⟩)
  | drw x y n =>
    exact (execDrw_cases x y n s).imp (fun ⟨hpos, hout, e⟩ => ⟨_, .spriteOutside x y n hpos hout, e⟩)
      (fun ⟨_, rows, _, _, e⟩ => ⟨_, .drawSprite x y n rows s, e⟩)
  | skp x => exact (execSkp_cases x s).imp (fun ⟨h, e⟩ => ⟨_, .noKeySkp x h, e⟩) (fun ⟨_, e⟩ => ⟨_, .skip _ rfl, e⟩)
  | sknp x => exact (execSknp_cases x s).imp (fun ⟨h, e⟩ => ⟨_, .noKeySknp x h, e⟩) (fun ⟨_, e⟩ => ⟨_, .skip _ rfl, e⟩)
  | ldB x =>
    exact (execLdB_cases x s).imp (fun ⟨h, e⟩ => ⟨_, .digitsOutside x h, e⟩)
      (fun ⟨_, m, hwf, _, e⟩ => ⟨_, .store m ⟨x, .inl rfl⟩ hwf, e⟩)
  | ldMemVx x =>
    exact (execLdMemVx_cases x s).imp (fun ⟨h, e⟩ => ⟨_, .storeOutside x h, e⟩)
      (fun ⟨_, m, hwf, _, e⟩ => ⟨_, .store m ⟨x, .inr rfl⟩ hwf, e⟩)
  | ldVxMem x =>
    exact (execLdVxMem_cases x s).imp (fun ⟨h, e⟩ => ⟨_, .loadOutside x h, e⟩)
      (fun ⟨_, bs, hlen, _, e⟩ => ⟨_, .load x bs hlen, e⟩)

theorem exec_fault_iff (i : Instr) (s : State) (f : Fault) : exec i s = .fault f ↔ Raises s i f := by
  refine ⟨fun h => ?_, exec_of_raises⟩
  rcases exec_cases i s with ⟨f', hraises, hexec⟩ | ⟨t, -, hexec⟩
  · obtain rfl : f' = f := Host.Outcome.fault.inj (hexec.symm.trans h)
    exact hraises
  · cases hexec.symm.trans h

theorem effect_of_exec {i : Instr} {s t : State} (h : exec i s = .next t) : Effect s i t := by
  rcases exec_cases i s with ⟨f, -, hexec⟩ | ⟨t', heffect, hexec⟩
  · cases hexec.symm.trans h
  · obtain rfl : t' = t := Host.Outcome.next.inj (hexec.symm.trans h)
    exact heffect

/-! ## The faults of a step -/

/-- The step from `s` raises the fault (R181 to R184): the fetch, the decoder or the instruction does. -/
inductive StepRaises (s : State) : Fault → Prop where
  | fetch : s.fetchWord = none → StepRaises s (.outOfBoundsAccess s.pc .fetch)
  | decode {op : Word} {e : DecodeError} : s.fetchWord = some op → decodeWord op = .error e →
      StepRaises s (.invalidOpcode op s.pc)
  | exec {op : Word} {i : Instr} {f : Fault} : s.fetchWord = some op → decodeWord op = .ok i → Raises s i f → StepRaises s f

/-- A Running step that fetches a word which decodes is the instruction's `exec`. -/
theorem step_of_decode {s : State} {op : Word} {i : Instr} (hrun : s.waitKey = none) (hfetch : s.fetchWord = some op)
    (hdecode : decodeWord op = .ok i) : step s = exec i s := by
  simp [step, State.fetchInstr, hrun, hfetch, hdecode]

theorem step_fault_iff (s : State) (f : Fault) : step s = .fault f ↔ s.waitKey = none ∧ StepRaises s f := by
  constructor
  · intro h
    cases hwait : s.waitKey with
    | some r => cases (step_waiting hwait).symm.trans h
    | none =>
      refine ⟨rfl, ?_⟩
      rcases step_running hwait with ⟨hfetch, hstep⟩ | ⟨op, e, hfetch, hdecode, hstep⟩ | ⟨op, i, hfetch, hdecode, hstep⟩
      · cases hstep.symm.trans h; exact .fetch hfetch
      · cases hstep.symm.trans h; exact .decode hfetch hdecode
      · exact .exec hfetch hdecode ((exec_fault_iff i s f).mp (hstep.symm.trans h))
  · rintro ⟨hrun, hraises⟩
    cases hraises with
    | fetch hfetch => simp [step, State.fetchInstr, raise, hrun, hfetch]
    | decode hfetch hdecode => simp [step, State.fetchInstr, raise, hrun, hfetch, hdecode]
    | exec hfetch hdecode hraises => exact (step_of_decode hrun hfetch hdecode).trans (exec_of_raises hraises)

end Sys2Proof.Machine
end

section
/-! PROOF. The statements on faults: each read off the two lists of faults, that of an instruction and that of a step. -/

namespace Sys2Proof.Machine

/-- Settles O45: each fault with `OutOfBoundsAccess` is one of the list, and each disjunct names one. -/
theorem outOfBoundsExactly : Obligations.OutOfBoundsExactly := by
  intro i s p k
  rw [exec_fault_iff]
  constructor
  · intro h
    cases h with
    | spriteOutside x y n hpos hout => exact ⟨rfl, .inl ⟨rfl, .inl ⟨x, y, n, rfl, hpos, hout⟩⟩⟩
    | digitsOutside x hout => exact ⟨rfl, .inl ⟨rfl, .inr (.inl ⟨x, rfl, hout⟩)⟩⟩
    | storeOutside x hout => exact ⟨rfl, .inl ⟨rfl, .inr (.inr ⟨x, .inl rfl, hout⟩)⟩⟩
    | loadOutside x hout => exact ⟨rfl, .inl ⟨rfl, .inr (.inr ⟨x, .inr rfl, hout⟩)⟩⟩
    | noKeySkp x hout => exact ⟨rfl, .inr ⟨rfl, x, .inl rfl, hout⟩⟩
    | noKeySknp x hout => exact ⟨rfl, .inr ⟨rfl, x, .inr rfl, hout⟩⟩
  · rintro ⟨rfl, ⟨rfl, ⟨x, y, n, rfl, hpos, hout⟩ | ⟨x, rfl, hout⟩ | ⟨x, rfl | rfl, hout⟩⟩ | ⟨rfl, x, rfl | rfl, hout⟩⟩
    · exact .spriteOutside x y n hpos hout
    · exact .digitsOutside x hout
    · exact .storeOutside x hout
    · exact .loadOutside x hout
    · exact .noKeySkp x hout
    · exact .noKeySknp x hout

/-- Settles O46: an instruction raises a fault of the list or completes; only the eight raise, and none raises `InvalidOpcode`. -/
theorem otherInstructionsAlwaysComplete : Obligations.OtherInstructionsAlwaysComplete := by
  intro i s
  refine ⟨fun hcannot => ?completes, fun r hrefused => ?notRefused, fun op p hfault => ?notInvalid⟩
  case completes =>
    rcases exec_cases i s with ⟨f, hraises, -⟩ | ⟨t, -, hexec⟩
    · cases hcannot.symm.trans (canFault_of_raises hraises)
    · exact ⟨t, hexec⟩
  case notRefused =>
    rcases exec_cases i s with ⟨f, -, hexec⟩ | ⟨t, -, hexec⟩ <;> cases hexec.symm.trans hrefused
  case notInvalid => cases (exec_fault_iff i s _).mp hfault

/-- No instruction raises the fetch fault; the step does, exactly where no word can be fetched. -/
theorem stepRaises_fetch_iff (s : State) (p : Word) :
    StepRaises s (.outOfBoundsAccess p .fetch) ↔ s.fetchWord = none ∧ p = s.pc := by
  constructor
  · intro h
    cases h with
    | fetch hfetch => exact ⟨hfetch, rfl⟩
    | exec _ _ hraises => cases hraises
  · rintro ⟨hfetch, rfl⟩
    exact .fetch hfetch

theorem State.fetchWord_eq_none_iff (s : State) : s.fetchWord = none ↔ 0xFFF ≤ s.pc.toNat := by
  rcases s.fetchWord_cases with ⟨hout, hfetch⟩ | ⟨hin, hfetch⟩
  · exact iff_of_true hfetch hout
  · exact iff_of_false (by simp [hfetch]) (by omega)

/-- Settles O3: of the faults of a step only the fetch's has kind `fetch`, and it comes where no word can be fetched. -/
theorem fetchFaultsExactlyOutOfBounds : Obligations.FetchFaultsExactlyOutOfBounds := by
  intro s p
  rw [step_fault_iff, stepRaises_fetch_iff, State.fetchWord_eq_none_iff]

theorem raises_stackUnderflow_iff (i : Instr) (s : State) (p : Word) :
    Raises s i (.stackUnderflow p) ↔ i = .ret ∧ s.sp = 0 ∧ p = s.pc := by
  constructor
  · intro h
    cases h with
    | emptyReturn h => exact ⟨rfl, h, rfl⟩
  · rintro ⟨rfl, h, rfl⟩
    exact .emptyReturn h

theorem raises_stackOverflow_iff (i : Instr) (s : State) (p : Word) :
    Raises s i (.stackOverflow p) ↔ (∃ nnn, i = .call nnn) ∧ s.sp = 16 ∧ p = s.pc := by
  constructor
  · intro h
    cases h with
    | fullCall nnn h => exact ⟨⟨nnn, rfl⟩, h, rfl⟩
  · rintro ⟨⟨nnn, rfl⟩, h, rfl⟩
    exact .fullCall nnn h

/-- The state after a step that faults is the state before it. -/
theorem stateAfter_of_fault {s : State} {f : Fault} (h : step s = .fault f) : stateAfter s (step s) = s := by
  rw [h]; rfl

/-- A fault that neither the fetch nor the decoder raises is raised by a step through the instruction alone; here, by the
instructions `P` where `Q` holds. -/
theorem step_fault_iff_of_exec {s : State} {f : Fault} {P : Instr → Prop} {Q : Prop}
    (hfetch : ∀ p, f ≠ .outOfBoundsAccess p .fetch) (hinvalid : ∀ op p, f ≠ .invalidOpcode op p)
    (h : ∀ i, Raises s i f ↔ P i ∧ Q) :
    step s = .fault f ↔ s.waitKey = none ∧ (∃ op i, s.fetchWord = some op ∧ decodeWord op = .ok i ∧ P i) ∧ Q := by
  rw [step_fault_iff]
  refine and_congr_right fun _ => ⟨fun hraises => ?_, ?_⟩
  · cases hraises with
    | fetch => exact absurd rfl (hfetch _)
    | decode => exact absurd rfl (hinvalid _ _)
    | exec hword hdecode hraises =>
      obtain ⟨hP, hQ⟩ := (h _).mp hraises
      exact ⟨⟨_, _, hword, hdecode, hP⟩, hQ⟩
  · rintro ⟨⟨op, i, hword, hdecode, hP⟩, hQ⟩
    exact .exec hword hdecode ((h i).mpr ⟨hP, hQ⟩)

/-- Settles O10: RET with sp = 0 is the only entry of the list with this fault, and a step has it from an instruction alone. -/
theorem stackUnderflowExactlyOnEmptyReturn : Obligations.StackUnderflowExactlyOnEmptyReturn := by
  refine ⟨fun i s p => ?instruction, fun s p => ?step, fun s p => stateAfter_of_fault⟩
  case instruction => rw [exec_fault_iff, raises_stackUnderflow_iff]
  case step =>
    rw [step_fault_iff_of_exec (by simp) (by simp) fun i => raises_stackUnderflow_iff i s p]
    simp

/-- Settles O11: CALL with sp = 16 is the only entry of the list with this fault, and a step has it from an instruction alone. -/
theorem stackOverflowExactlyOnSeventeenthCall : Obligations.StackOverflowExactlyOnSeventeenthCall := by
  refine ⟨fun i s p => ?instruction, fun s p => ?step, fun s p => stateAfter_of_fault⟩
  case instruction => rw [exec_fault_iff, raises_stackOverflow_iff]
  case step =>
    rw [step_fault_iff_of_exec (by simp) (by simp) fun i => raises_stackOverflow_iff i s p]
    simp

/-- Whether a step faults, and how, is read off wait_key, memory, pc, sp, I and the registers. -/
theorem step_fault_congr {s s' : State} {f : Fault} (hwait : s'.waitKey = s.waitKey) (hmem : s'.mem = s.mem)
    (hpc : s'.pc = s.pc) (hsp : s'.sp = s.sp) (hindex : s'.index = s.index) (hreg : ∀ r, s'.reg r = s.reg r)
    (h : step s = .fault f) : step s' = .fault f := by
  obtain ⟨hrun, hraises⟩ := (step_fault_iff s f).mp h
  have hword : s'.fetchWord = s.fetchWord := by simp only [State.fetchWord, State.memRead, hmem, hpc]
  refine (step_fault_iff s' f).mpr ⟨hwait.trans hrun, ?_⟩
  cases hraises with
  | fetch hfetch => exact hpc ▸ .fetch (hword.trans hfetch)
  | decode hfetch hdecode => exact hpc ▸ .decode (hword.trans hfetch) hdecode
  | exec hfetch hdecode hraises => exact .exec (hword.trans hfetch) hdecode (hraises.congr hsp hpc hindex hreg)

/-- Settles O57: no key change and no timer tick touches what a fault is read off. -/
theorem faultsAreSticky : Obligations.FaultsAreSticky := by
  intro s f h
  have hafter := stateAfter_of_fault h
  exact ⟨hafter, hafter.symm ▸ h, fun k p => step_fault_congr (s := s) rfl rfl rfl rfl rfl (fun _ => rfl) h,
    step_fault_congr (s := s) rfl rfl rfl rfl rfl (fun _ => rfl) h⟩

end Sys2Proof.Machine
end

section
/-! PROOF. Which part of the state an instruction changes (R38), each read off the list of changes. -/

namespace Sys2Proof.Machine

section

variable {i : Instr} {s t : State}

theorem Effect.keepsKeypad (h : Effect s i t) : KeepsKeypad s t := by
  cases h <;> simp [KeepsKeypad]

theorem Effect.keepsDisplay (h : Effect s i t) : KeepsDisplay s t ∨ i = .cls ∨ ∃ x y n, i = .drw x y n := by
  cases h with
  | clear => exact .inr (.inl rfl)
  | draw x y n => exact .inr (.inr ⟨x, y, n, rfl⟩)
  | _ => left; simp [KeepsDisplay]

theorem Effect.keepsStack (h : Effect s i t) : KeepsStack s t ∨ i = .ret ∨ ∃ nnn, i = .call nnn := by
  cases h with
  | ret => exact .inr (.inl rfl)
  | call nnn => exact .inr (.inr ⟨nnn, rfl⟩)
  | _ => left; simp [KeepsStack]

theorem Effect.keepsIndex (h : Effect s i t) :
    KeepsIndex s t ∨ (∃ nnn, i = .ldI nnn) ∨ ∃ x, i = .addI x ∨ i = .ldF x := by
  cases h with
  | index w hi => exact .inr hi
  | _ => left; simp [KeepsIndex]

theorem Effect.keepsDelay (h : Effect s i t) : t.dt = s.dt ∨ ∃ x, i = .ldDtVx x := by
  cases h with
  | delay x b => exact .inr ⟨x, rfl⟩
  | _ => left; simp

theorem Effect.keepsSound (h : Effect s i t) : t.st = s.st ∨ ∃ x, i = .ldStVx x := by
  cases h with
  | sound x b => exact .inr ⟨x, rfl⟩
  | _ => left; simp

/-- `wait_key` is written by `LD Vx, K` alone, which makes it the register the instruction names. -/
theorem Effect.keepsWait (h : Effect s i t) : KeepsWait s t ∨ ∃ x, i = .ldVxK x ∧ t.waitKey = some x := by
  cases h with
  | wait x => exact .inr ⟨x, rfl, rfl⟩
  | _ => left; simp [KeepsWait]

theorem Effect.keepsMemory (h : Effect s i t) : KeepsMemory s t ∨ ∃ x, i = .ldB x ∨ i = .ldMemVx x := by
  cases h with
  | store m hi hwf => exact .inr hi
  | _ => left; simp [KeepsMemory]

/-- A register that has changed is a named destination, or it is VF and the instruction writes a flag. -/
theorem Effect.changed_reg (h : Effect s i t) {r : Reg} (hr : t.reg r ≠ s.reg r) :
    namesDest i r ∨ (r = 15 ∧ writesFlag i = true) := by
  have of_setReg {s : State} {x : Reg} {b : Byte} (h : (s.setReg x b).reg r ≠ s.reg r) : r = x := by
    by_contra hne
    rw [State.setReg_reg, if_neg hne] at h
    exact h rfl
  cases h with
  | result b hdest => exact .inl (of_setReg hr ▸ hdest)
  | random x kk b => exact .inl (of_setReg hr)
  | resultFlag b c hdest hflag =>
    by_cases hvf : r = 15
    · exact .inr ⟨hvf, hflag⟩
    · rw [State.setReg_reg, if_neg hvf] at hr
      exact .inl (of_setReg hr ▸ hdest)
  | draw => exact .inr ⟨of_setReg hr, rfl⟩
  | load x bs hlen =>
    by_contra hnot
    have hx : bs.length ≤ r.val := by
      rw [hlen]
      exact Nat.lt_of_not_le fun hle => hnot (.inl hle)
    rw [State.setRegs_reg, List.getD_eq_default _ _ hx] at hr
    exact hr rfl
  | _ => simp at hr

/-- After an instruction that writes a flag, VF is 0 or 1: the flag is the last register written (R23). -/
theorem Effect.flag_values (h : Effect s i t) (hflag : writesFlag i = true) : t.reg 15 = 0 ∨ t.reg 15 = 1 := by
  have of_flag (s : State) (c : Bool) : (s.setReg vf (flagOf c)).reg 15 = 0 ∨ (s.setReg vf (flagOf c)).reg 15 = 1 := by
    cases c <;> simp [flagOf]
  cases h with
  | resultFlag b c => exact of_flag _ c
  | draw x y n cells c => exact of_flag _ c
  | jump w hno | result b hdest hno => cases hno.symm.trans hflag
  | index w hi => rcases hi with ⟨nnn, rfl⟩ | ⟨x, rfl | rfl⟩ <;> cases hflag
  | store m hi => obtain ⟨x, rfl | rfl⟩ := hi <;> cases hflag
  | _ => cases hflag

end

/-- Settles O48: each part by its own lemma on the list of changes. -/
theorem partsChangeOnlyByTheirWriters : Obligations.PartsChangeOnlyByTheirWriters := by
  intro i s t hexec
  have h := effect_of_exec hexec
  exact ⟨h.keepsKeypad, h.keepsDisplay, h.keepsStack, h.keepsIndex, h.keepsDelay, h.keepsSound,
    h.keepsWait.imp_right fun ⟨x, hi, _⟩ => ⟨x, hi⟩, h.keepsMemory⟩

/-- Settles O30: by the registers each change writes. -/
theorem registersChangeOnlyAsNamed : Obligations.RegistersChangeOnlyAsNamed := by
  intro i s t hexec
  have h := effect_of_exec hexec
  exact ⟨fun r => h.changed_reg, h.flag_values⟩

end Sys2Proof.Machine
end

section
/-! PROOF. The state AwaitingKey (R91, R152, R153). -/

namespace Sys2Proof.Machine

/-- The number of a key is a byte. -/
theorem toNat_ofNat_key (k : Key) : (BitVec.ofNat 8 k.val).toNat = k.val :=
  Nat.mod_eq_of_lt (by omega)

/-- The least pressed key is the only one. -/
theorem leastKey_unique {s : State} {j k : Key} (hj : s.key j = true) (hjlt : ∀ l, l < j → s.key l = false)
    (hk : s.key k = true) (hklt : ∀ l, l < k → s.key l = false) : j = k := by
  rcases lt_trichotomy j k with hlt | heq | hlt
  · cases hj.symm.trans (hklt j hlt)
  · exact heq
  · cases hk.symm.trans (hjlt k hlt)

/-- Settles O38: the step is the poll, which finds no key or the least one and writes it to the waiting register. -/
theorem awaitingStepPollsTheKeypad : Obligations.AwaitingStepPollsTheKeypad := by
  intro s r hwait
  rw [step_waiting hwait]
  rcases pollKeypad_cases r s with ⟨hnone, hpoll⟩ | ⟨j, hj, hjlt, hpoll⟩ <;> rw [hpoll]
  · exact ⟨fun _ => rfl, fun k hk _ => nomatch (hnone k).symm.trans hk⟩
  · refine ⟨fun hnone => (nomatch (hnone j).symm.trans hj), fun k hk hklt => ?_⟩
    obtain rfl := leastKey_unique hj hjlt hk hklt
    refine ⟨_, rfl, ?written, fun q hq => ?others, rfl, rfl, rfl, ⟨rfl, fun _ => rfl⟩, ⟨rfl, rfl⟩, fun _ => rfl,
      fun _ => rfl, fun _ => rfl, rfl⟩
    case written => rw [State.setWait_reg, State.setReg_reg, if_pos rfl, toNat_ofNat_key]
    case others => rw [State.setWait_reg, State.setReg_reg, if_neg (List.mem_singleton.not.mp hq)]

/-- Settles O39: a Running step writes `wait_key` only where its instruction is `LD Vx, K`, and a poll either finds a key, and ends
the wait, or leaves the state as it is. -/
theorem waitStateTransitions : Obligations.WaitStateTransitions := by
  intro s t hstep
  rcases step_next_cases hstep with ⟨r, hwait, rfl⟩ | ⟨op, i, hrun, hfetch, hdecode, hexec⟩
  · refine ⟨fun hrun => (nomatch hrun.symm.trans hwait), fun _ _ => ?_⟩
    rcases pollKeypad_cases r s with ⟨hnone, hpoll⟩ | ⟨k, hk, -, hpoll⟩ <;> rw [hpoll]
    · exact .inr ⟨rfl, hnone⟩
    · exact .inl ⟨rfl, k, hk⟩
  · refine ⟨fun _ x hx => ?_, fun r hwait => nomatch hrun.symm.trans hwait⟩
    rcases (effect_of_exec hexec).keepsWait with hkeep | ⟨y, rfl, hy⟩
    · cases hrun.symm.trans (hkeep.symm.trans hx)
    · obtain rfl : y = x := Option.some.inj (hy.symm.trans hx)
      exact ⟨op, hfetch, hdecode⟩

end Sys2Proof.Machine
end

section
/-! PROOF. The invariant: the reset makes it, every step and every environment action keeps it (R37). -/

namespace Sys2Proof.Machine

/-- The invariant reads memory, display and stack alone. -/
theorem State.Inv.congr {s t : State} (h : s.Inv) (hmem : t.mem = s.mem) (hdisplay : t.display = s.display)
    (hsp : t.sp = s.sp) (hslot : ∀ k, t.slot k = s.slot k) : t.Inv where
  memory := hmem ▸ h.memory
  display := hdisplay ▸ h.display
  stack k hk := hslot k ▸ h.stack k (hsp ▸ hk)

/-- A return uncovers no slot. -/
theorem State.stackLive.setSp {s : State} (h : s.stackLive) {n : Fin 17} (hn : n.val ≤ s.sp.val) : (s.setSp n).stackLive :=
  fun k hk => h k (Nat.lt_of_lt_of_le hk hn)

/-- A call from an address a word can be fetched from pushes an address 0x0002 to 0x1000. -/
theorem State.stackLive.push {s : State} (h : s.stackLive) (hsp : s.sp.val < 16) (hpc : s.pc.toNat ≤ 0xFFE) :
    ((s.setSlot ⟨s.sp.val, hsp⟩ s.npc).setSp ⟨s.sp.val + 1, by omega⟩).stackLive := by
  intro k hk
  replace hk : k.val < s.sp.val + 1 := hk
  rw [setSp_slot, setSlot_slot]
  split
  · rw [npc_def]
    bv_omega
  · next hne =>
    have hne : k.val ≠ s.sp.val := Fin.val_ne_of_ne hne
    exact h k (by omega)

/-- An instruction at an address a word can be fetched from keeps the invariant. -/
theorem Effect.keeps_inv {i : Instr} {s t : State} (h : Effect s i t) (hinv : s.Inv) (hpc : s.pc.toNat ≤ 0xFFE) : t.Inv := by
  cases h with
  | clear => exact ⟨hinv.memory, Display.wf_nil, hinv.stack⟩
  | ret h => exact ⟨hinv.memory, hinv.display, hinv.stack.setSp (Nat.sub_le _ _)⟩
  | call nnn h => exact ⟨hinv.memory, hinv.display, hinv.stack.push h hpc⟩
  | draw x y n cells => exact ⟨hinv.memory, wf_drawCells cells hinv.display false, hinv.stack⟩
  | store m hi hwf => exact ⟨hwf hinv.memory, hinv.display, hinv.stack⟩
  | _ => exact hinv.congr (by simp) (by simp) (by simp) (by simp)

theorem pollKeypad_keeps_inv {s : State} (hinv : s.Inv) (r : Reg) : (pollKeypad r s).Inv := by
  rcases pollKeypad_cases r s with ⟨-, hpoll⟩ | ⟨k, -, -, hpoll⟩ <;> rw [hpoll]
  · exact hinv
  · exact hinv.congr rfl rfl rfl fun _ => rfl

/-- Settles O49: a step is a poll, which writes none of the three parts, or an instruction at an address it could be fetched from. -/
theorem stepKeepsInvariant : Obligations.StepKeepsInvariant := by
  intro s t hinv hstep
  rcases step_next_cases hstep with ⟨r, -, rfl⟩ | ⟨op, i, -, hfetch, -, hexec⟩
  · exact pollKeypad_keeps_inv hinv r
  · rcases s.fetchWord_cases with ⟨-, hnone⟩ | ⟨hpc, -⟩
    · cases hnone.symm.trans hfetch
    · exact (effect_of_exec hexec).keeps_inv hinv hpc

/-- A reset makes the invariant from any state: memory is canonical, the display is dark and no stack slot is live. -/
theorem inv_of_resetWith {font : Config.Font} {rom : List Byte} {s t : State} (h : resetWith font rom s = .next t) : t.Inv := by
  rcases resetWith_cases font rom s with ⟨-, hrefused⟩ | ⟨-, m, hwf, hnext, -⟩
  · cases hrefused.symm.trans h
  · obtain rfl := Host.Outcome.next.inj (hnext.symm.trans h)
    exact ⟨hwf, Display.wf_nil, fun k hk => absurd hk (Nat.not_lt_zero _)⟩

/-- Settles O50: the reset state is what a reset with the default font and the empty image makes of it. -/
theorem resetMeetsInvariant : Obligations.ResetMeetsInvariant :=
  inv_of_resetWith (resetWith_default State.reset)

theorem hostAct_keeps_inv (font : Config.Font) (a : HostAction) {s t : State} (hinv : s.Inv) (h : hostAct font a s = .next t) :
    t.Inv := by
  cases a with
  | reset rom => exact inv_of_resetWith h
  | setKey k p =>
    obtain rfl := Host.Outcome.next.inj h
    exact hinv.congr rfl rfl rfl fun _ => rfl
  | timerTick =>
    obtain rfl := Host.Outcome.next.inj h
    exact hinv.congr rfl rfl rfl fun _ => rfl

/-- Settles O51: a reset makes the invariant, a key change and a timer tick write none of the three parts it reads. -/
theorem environmentKeepsInvariant : Obligations.EnvironmentKeepsInvariant :=
  fun font => ⟨fun a _ _ => hostAct_keeps_inv font a, fun _ _ _ => inv_of_resetWith⟩

/-- Settles O52, by induction on the run: the reset it starts with makes the invariant and every event keeps it. -/
theorem reachableStatesMeetInvariant : Obligations.ReachableStatesMeetInvariant := by
  intro font s hreach
  induction hreach with
  | start hreset => exact inv_of_resetWith hreset
  | @event e s s' _ hevent hinv =>
    cases e with
    | step => exact stepKeepsInvariant s s' hinv hevent
    | act a => exact hostAct_keeps_inv font a hinv hevent

end Sys2Proof.Machine
end

section
/-! PROOF. The draw of a sprite (R141 to R143). -/

namespace Sys2Proof.Machine

/-- The sprite's rows at the registers' coordinates touch the cell `c`. -/
abbrev State.Touched (s : State) (p : Config.EdgePolicy) (x y : Reg) (rows : List Byte) (c : Pixel) : Prop :=
  Touches p (s.reg x).toNat (s.reg y).toNat rows c

section

variable {rows : List Byte} (p : Config.EdgePolicy) (x y : Reg) (s : State)

theorem drawSprite_pixel_iff (hlen : rows.length ≤ 15) (c : Pixel) :
    (drawSprite p x y rows s).pixel c = true ↔ (s.Touched p x y rows c ↔ s.pixel c = false) := by
  rw [pixel_drawSprite p x y rows s (by omega) c, State.Touched, touches_iff_mem]

theorem drawSprite_pixel_of_touched (hlen : rows.length ≤ 15) {c : Pixel} (hc : s.Touched p x y rows c) :
    (drawSprite p x y rows s).pixel c = !s.pixel c := by
  rw [Bool.eq_iff_iff, drawSprite_pixel_iff p x y s hlen c]
  simp [hc]

theorem drawSprite_pixel_of_not_touched (hlen : rows.length ≤ 15) {c : Pixel} (hc : ¬ s.Touched p x y rows c) :
    (drawSprite p x y rows s).pixel c = s.pixel c := by
  rw [Bool.eq_iff_iff, drawSprite_pixel_iff p x y s hlen c]
  simp [hc]

/-- VF after a draw, from whether a touched cell was lit. -/
theorem drawSprite_flag_eq_one_iff (hlen : rows.length ≤ 15) :
    (drawSprite p x y rows s).reg 15 = 1 ↔ ∃ c, s.Touched p x y rows c ∧ s.pixel c = true := by
  have hone (b : Bool) : flagOf b = 1 ↔ b = true := by cases b <;> decide
  simp only [vf_drawSprite p x y rows s (by omega), hone, List.any_eq_true, touches_iff_mem]

theorem drawSprite_flag_eq_zero (hlen : rows.length ≤ 15) (h : ∀ c, s.Touched p x y rows c → s.pixel c = false) :
    (drawSprite p x y rows s).reg 15 = 0 := by
  have hnone : (spriteCells p (s.reg x).toNat (s.reg y).toNat rows).any (fun c => s.pixel c) = false := by
    rw [List.any_eq_false]
    intro c hc
    simp [h c ((touches_iff_mem ..).mpr hc)]
  rw [show (15 : Reg) = vf from rfl, vf_drawSprite p x y rows s (by omega), hnone]
  rfl

/-- A draw keeps every register but VF. -/
theorem drawSprite_reg_of_ne {r : Reg} (hr : r ≠ 15) : (drawSprite p x y rows s).reg r = s.reg r := by
  rw [drawSprite_eq, State.setFlag_eq, State.setReg_reg, if_neg hr, State.setDisplay_reg]

end

/-- Settles O33: `pixel_drawSprite` and `vf_drawSprite` say it of the cells the draw visits, which are those the sprite touches. -/
theorem drawUnderEitherEdgePolicy : Obligations.DrawUnderEitherEdgePolicy :=
  fun p x y _ s hlen => ⟨drawSprite_pixel_iff p x y s hlen, drawSprite_flag_eq_one_iff p x y s hlen⟩

/-! ## The two edge policies -/

/-- A pixel inside the display lands on the same cell under both policies. -/
theorem pixelAt_clip_eq_wrap {px py : Nat} (hx : px ≤ 63) (hy : py ≤ 31) : pixelAt .clip px py = pixelAt .wrap px py := by
  ext c
  rw [pixelAt_clip, pixelAt_wrap]
  omega

theorem rowCells_clip_eq_wrap {vx py : Nat} (hx : vx ≤ 56) (hy : py ≤ 31) (b : Byte) :
    rowCells .clip vx py b = rowCells .wrap vx py b := by
  refine List.filterMap_congr fun col hcol => ?_
  have hcol : col < 8 := (mem_spriteColumns col).mp hcol
  rw [pixelAt_clip_eq_wrap (by omega) hy]

theorem spriteCells_clip_eq_wrap {vx vy : Nat} {rows : List Byte} (hx : vx ≤ 56) (hy : vy + rows.length ≤ 32) :
    spriteCells .clip vx vy rows = spriteCells .wrap vx vy rows := by
  induction rows generalizing vy with
  | nil => rfl
  | cons b rows ih =>
    rw [List.length_cons] at hy
    rw [spriteCells, spriteCells, rowCells_clip_eq_wrap hx (by omega), ih (by omega)]

/-- Settles O34: a sprite inside the display visits the same cells under both policies. -/
theorem edgePoliciesAgreeInside : Obligations.EdgePoliciesAgreeInside := by
  intro x y rows s hx hy
  rw [drawSprite_eq, drawSprite_eq, spriteCells_clip_eq_wrap hx hy]

/-! ## The instruction -/

/-- `DRW` where every sprite byte lies in memory: the draw, under the configured policy, of the bytes at I. -/
theorem exec_drw_next (x y : Reg) (n : Rows) (s : State) (h : n.val = 0 ∨ s.index.toNat + (n.val - 1) ≤ 0xFFF) :
    ∃ rows, rows.length = n.val ∧ (∀ k, k < n.val → rows[k]? = s.memRead (s.index.toNat + k)) ∧
      exec (.drw x y n) s = .next (drawSprite .clip x y rows (s.jump s.npc)) := by
  rcases execDrw_cases x y n s with ⟨hpos, hout, -⟩ | ⟨-, hrows⟩
  · omega
  · exact hrows

/-- Settles O32: the state is the draw of the bytes at I, by what a draw does to every cell and to VF. -/
theorem drawComplementsTheTouchedCells : Obligations.DrawComplementsTheTouchedCells := by
  intro x y n s h
  obtain ⟨rows, hlen, hbytes, hexec⟩ := exec_drw_next x y n s h
  have hle : rows.length ≤ 15 := by omega
  refine ⟨rows, _, hexec, hlen, hbytes, fun c => drawSprite_pixel_of_touched _ x y (s.jump s.npc) hle,
    fun c => drawSprite_pixel_of_not_touched _ x y (s.jump s.npc) hle,
    (drawSprite_flag_eq_one_iff _ x y (s.jump s.npc) hle).mpr,
    drawSprite_flag_eq_zero _ x y (s.jump s.npc) hle, s.npc_def, fun r hr => ?_, rfl, ⟨rfl, fun _ => rfl⟩, ⟨rfl, rfl⟩,
    fun _ => rfl, rfl, fun _ => rfl, rfl⟩
  exact drawSprite_reg_of_ne _ x y _ (List.mem_singleton.not.mp hr)

/-- `DRW` completes only where every sprite byte lies in memory. -/
theorem sprite_in_memory_of_exec_drw {x y : Reg} {n : Rows} {s t : State} (h : exec (.drw x y n) s = .next t) :
    n.val = 0 ∨ s.index.toNat + (n.val - 1) ≤ 0xFFF := by
  by_contra hout
  cases (exec_of_raises (.spriteOutside x y n (by omega) (by omega))).symm.trans h

/-- Two lists of the same `n` bytes from the same address are the same list. -/
theorem eq_of_same_bytes {n a : Nat} {bs bs' : List Byte} {read : Nat → Option Byte} (hlen : bs.length = n)
    (hlen' : bs'.length = n) (h : ∀ k, k < n → bs[k]? = read (a + k)) (h' : ∀ k, k < n → bs'[k]? = read (a + k)) :
    bs = bs' := by
  refine List.ext_getElem? fun k => ?_
  by_cases hk : k < n
  · rw [h k hk, h' k hk]
  · rw [List.getElem?_eq_none (by omega), List.getElem?_eq_none (by omega)]

/-- The same `DRW` in a state with the same bytes at I and the same Vx and Vy draws the same rows there. -/
theorem exec_drw_again {x y : Reg} {n : Rows} {s t : State} (hfirst : exec (.drw x y n) s = .next t) :
    ∃ rows, rows.length ≤ 15 ∧ t = drawSprite .clip x y rows (s.jump s.npc) ∧
      ∀ t' : State, KeepsMemory s t' → KeepsIndex s t' →
        exec (.drw x y n) t' = .next (drawSprite .clip x y rows (t'.jump t'.npc)) := by
  have hin := sprite_in_memory_of_exec_drw hfirst
  obtain ⟨rows, hlen, hbytes, hexec⟩ := exec_drw_next x y n s hin
  refine ⟨rows, by omega, Host.Outcome.next.inj (hfirst.symm.trans hexec), fun t' hmem hindex => ?_⟩
  obtain ⟨rows', hlen', hbytes', hexec'⟩ := exec_drw_next x y n t' (hindex.symm ▸ hin)
  obtain rfl : rows = rows' := by
    refine eq_of_same_bytes hlen hlen' hbytes fun k hk => ?_
    rw [hbytes' k hk, hindex, hmem]
  exact hexec'

/-- Settles O35: the second draw finds the same rows at the same coordinates and so touches the same cells, each complemented by the
first; it collides exactly in the cells the first one lit. -/
theorem drawTwiceRestoresTheDisplay : Obligations.DrawTwiceRestoresTheDisplay := by
  intro x y n s t t' hfirst hdisplay hmem hindex hx hy
  obtain ⟨rows, hlen, rfl, hagain⟩ := exec_drw_again hfirst
  have hsame (c : Pixel) : (t'.jump t'.npc).Touched .clip x y rows c ↔ (s.jump s.npc).Touched .clip x y rows c := by
    simp only [State.Touched, State.jump_reg, hx, hy]
  have hin {c : Pixel} := drawSprite_pixel_of_touched .clip x y (s.jump s.npc) hlen (c := c)
  have hout {c : Pixel} := drawSprite_pixel_of_not_touched .clip x y (s.jump s.npc) hlen (c := c)
  refine ⟨_, hagain t' hmem hindex, fun c => ?restored, ?collides, fun hlit => ?clear⟩
  case restored =>
    by_cases hc : (s.jump s.npc).Touched .clip x y rows c
    · rw [drawSprite_pixel_of_touched _ x y _ hlen ((hsame c).mpr hc), State.jump_pixel, hdisplay, hin hc,
        State.jump_pixel, Bool.not_not]
    · rw [drawSprite_pixel_of_not_touched _ x y _ hlen (mt (hsame c).mp hc), State.jump_pixel, hdisplay, hout hc,
        State.jump_pixel]
  case collides =>
    rintro ⟨c, hdark, hlit⟩
    refine (drawSprite_flag_eq_one_iff _ x y _ hlen).mpr ⟨c, (hsame c).mpr ?_, (hdisplay c).trans hlit⟩
    by_contra hc
    cases hdark.symm.trans ((hout hc).symm.trans hlit)
  case clear =>
    refine drawSprite_flag_eq_zero _ x y _ hlen fun c hc => (hdisplay c).trans ?_
    have hcompl := hin ((hsame c).mp hc)
    by_contra hne
    have ht := eq_true_of_ne_false hne
    rw [ht, State.jump_pixel, hlit c ht] at hcompl
    cases hcompl

end Sys2Proof.Machine
end

section
/-! PROOF. Jumps, calls and returns (R101 to R103, R108). -/

namespace Sys2Proof.Machine

/-- What JP nnn does, in every state. -/
theorem exec_jp (nnn : Addr) (s : State) : exec (.jp nnn) s = .next (s.jump (zextAddr nnn)) := rfl

/-- A jump of a state to its own pc is that state. -/
theorem State.jump_zextAddr_self {s : State} {nnn : Addr} (h : nnn.toNat = s.pc.toNat) : s.jump (zextAddr nnn) = s := by
  have hpc : zextAddr nnn = s.pc := BitVec.eq_of_toNat_eq ((zextAddr_toNat nnn).trans h)
  rw [hpc]
  rfl

/-- Settles O12: JP is a jump, whose frame is known; 0xFFF is the first pc from which no word can be fetched. -/
theorem jumpSetsPc : Obligations.JumpSetsPc := by
  intro nnn s
  refine ⟨decodeWord_encode (.jp nnn), _, exec_jp nnn s, zextAddr_toNat nnn, onlyPc_jump s _, State.jump_zextAddr_self, ?_⟩
  rintro hrun rfl
  exact (fetchFaultsExactlyOutOfBounds _ _).mpr ⟨hrun, Nat.le_refl 0xFFF, rfl⟩

/-- Settles O19, by induction on the number of steps: each is the jump that leaves the state as it is. -/
theorem jumpToItselfRests : Obligations.JumpToItselfRests := by
  intro s op nnn hrun hfetch hdecode hself n
  have hstep : step s = .next s := by
    rw [step_of_decode hrun hfetch hdecode, exec_jp, State.jump_zextAddr_self hself]
  induction n with
  | zero => exact ⟨trivial, rfl⟩
  | succ n ih =>
    obtain ⟨hok, hend⟩ := ih
    have hcore : core.step s = .next s := hstep
    exact ⟨⟨s, hstep, hok⟩, by simp only [Host.Core.run, hcore, hend]⟩

/-- Settles O9: with a call outstanding RET is the pop and the jump to the popped slot. -/
theorem returnPopsTheReturnAddress : Obligations.ReturnPopsTheReturnAddress := by
  intro s hpos
  rcases execRet_cases s with ⟨hzero, -⟩ | ⟨_, hexec⟩
  · exact absurd hpos (by simp [hzero])
  · refine ⟨_, hexec, rfl, fun k hk => ?_, fun _ => rfl, fun _ => rfl, rfl, ⟨rfl, rfl⟩, fun _ => rfl, fun _ => rfl, rfl,
      fun _ => rfl, rfl⟩
    exact congrArg s.slot (Fin.ext hk.symm)

/-- Settles O13: with fewer than sixteen calls outstanding CALL is the push of the next instruction's address and a jump. -/
theorem callPushesTheReturnAddress : Obligations.CallPushesTheReturnAddress := by
  intro nnn s hlt
  rcases execCall_cases nnn s with ⟨hfull, -⟩ | ⟨_, hexec⟩
  · exact absurd hlt (by simp [hfull])
  · refine ⟨_, hexec, zextAddr_toNat nnn, rfl, fun k => ?_, fun _ => rfl, rfl, ⟨rfl, rfl⟩, fun _ => rfl, fun _ => rfl, rfl,
      fun _ => rfl, rfl⟩
    rw [State.jump_slot, State.setSp_slot, State.setSlot_slot, s.npc_def]
    simp only [Fin.ext_iff]

/-- Settles O14: the call pushes the address after it and jumps to a word that decodes to RET, which pops that address again; the
live slots are the ones below the one pushed to. -/
theorem callThenReturnComesBack : Obligations.CallThenReturnComesBack := by
  intro s op nnn hrun hfetch hdecode hlt hhi hlo
  obtain ⟨t, hcall, htpc, htsp, htslot, htregs, htindex, httimers, htdisplay, htkeypad, htwait, htmem, htdraws⟩ :=
    callPushesTheReturnAddress nnn s hlt
  obtain ⟨u, hret, husp, hupc, huslot, huregs, huindex, hutimers, hudisplay, hukeypad, huwait, humem, hudraws⟩ :=
    returnPopsTheReturnAddress t (by omega)
  have hreturn : step t = exec .ret t :=
    (runningStepRunsTheDecodedInstruction t 0x00 0xEE (htwait.trans hrun) (by rw [htpc, htmem, hhi])
      (by rw [htpc, htmem, hlo])).1 .ret (decodeWord_encode .ret)
  have hslot (k : Fin 16) : u.slot k = if k.val = s.sp.val then s.pc + 2 else s.slot k := (huslot k).trans (htslot k)
  refine ⟨t, u, (step_of_decode hrun hfetch hdecode).trans hcall, htpc, hreturn.trans hret, ?pc, Fin.ext (by omega),
    fun k hk => ?live, fun r => (huregs r).trans (htregs r), huindex.trans htindex,
    ⟨hutimers.1.trans httimers.1, hutimers.2.trans httimers.2⟩, fun c => (hudisplay c).trans (htdisplay c),
    fun k => (hukeypad k).trans (htkeypad k), huwait.trans htwait, fun a => (humem a).trans (htmem a),
    hudraws.trans htdraws⟩
  case pc =>
    have htop : s.sp.val = t.sp.val - 1 := by omega
    rw [hupc ⟨s.sp.val, hlt⟩ htop, htslot, if_pos rfl]
  case live => rw [hslot, if_neg (Nat.ne_of_lt hk)]

/-- What JP V0, nnn does, in every state. -/
theorem exec_jpV0 (nnn : Addr) (s : State) :
    exec (.jpV0 nnn) s = .next (s.jump (zextAddr nnn + zextByte (s.reg 0))) := rfl

/-- Settles O18: the sum of a 12-bit and an 8-bit number is less than 65536. -/
theorem jumpPlusV0 : Obligations.JumpPlusV0 := by
  intro nnn s
  refine ⟨_, exec_jpV0 nnn s, ?_, onlyPc_jump s _⟩
  rw [State.jump_pc, BitVec.toNat_add, zextAddr_toNat, zextByte_toNat]
  omega

end Sys2Proof.Machine
end

section
/-! PROOF. The skips on registers and keys (R105 to R107, R150, R151). -/

namespace Sys2Proof.Machine

/-- A skip completes with pc alone changed, 4 on where its condition holds, else 2 on. -/
theorem skipIf_next {s : State} {r : Result} {c : Bool} (h : r = .next (s.skipIf c)) :
    ∃ t, r = .next t ∧ OnlyPc s t ∧ t.pc = if c then s.pc + 4 else s.pc + 2 :=
  ⟨_, h, onlyPc_skipIf s c, by rw [State.skipIf_eq, State.jump_pc]⟩

theorem exec_sneImm (x : Reg) (kk : Byte) (s : State) : exec (.sneImm x kk) s = .next (s.skipIf (s.reg x != kk)) := rfl

theorem exec_seReg (x y : Reg) (s : State) : exec (.seReg x y) s = .next (s.skipIf (s.reg x == s.reg y)) := rfl

theorem exec_sneReg (x y : Reg) (s : State) : exec (.sneReg x y) s = .next (s.skipIf (s.reg x != s.reg y)) := rfl

/-- Settles O16: the word is the encoding of SNE Vx, kk, and the instruction is the skip on Vx ≠ kk. -/
theorem skipIfNotEqualImmediate : Obligations.SkipIfNotEqualImmediate := by
  intro x kk s
  obtain ⟨t, hexec, honly, hpc⟩ := skipIf_next (exec_sneImm x kk s)
  exact ⟨decodeWord_encode (.sneImm x kk), t, hexec, honly, fun h => by simp [hpc, h], fun h => by simp [hpc, h]⟩

/-- Settles O17: the two instructions are the skips on Vx = Vy and on Vx ≠ Vy. -/
theorem skipOnRegister : Obligations.SkipOnRegister := by
  intro x y s
  obtain ⟨t, hexec, honly, hpc⟩ := skipIf_next (exec_seReg x y s)
  obtain ⟨u, hexec', honly', hpc'⟩ := skipIf_next (exec_sneReg x y s)
  exact ⟨⟨t, hexec, honly, fun h => by simp [hpc, h], fun h => by simp [hpc, h]⟩,
    ⟨u, hexec', honly', fun h => by simp [hpc', h], fun h => by simp [hpc', h]⟩⟩

/-- Settles O36: up to 15 the value of Vx is the number of the key the skip is on; above, both instructions fault. -/
theorem skipOnKey : Obligations.SkipOnKey := by
  intro x s
  refine ⟨fun k hk => ?key, fun hout => ⟨exec_of_raises (.noKeySkp x hout), exec_of_raises (.noKeySknp x hout)⟩⟩
  have hin : ¬ 15 < (s.reg x).toNat := by omega
  have hnumber (h : (s.reg x).toNat < 16) : (⟨(s.reg x).toNat, h⟩ : Key) = k := Fin.ext hk
  constructor
  · obtain ⟨h, hexec⟩ := (execSkp_cases x s).resolve_left fun h => hin h.1
    rw [hnumber h] at hexec
    exact skipIf_next hexec
  · obtain ⟨h, hexec⟩ := (execSknp_cases x s).resolve_left fun h => hin h.1
    rw [hnumber h] at hexec
    obtain ⟨t, hnext, honly, hpc⟩ := skipIf_next hexec
    refine ⟨t, hnext, honly, ?_⟩
    cases hkey : s.key k <;> simp [hpc, hkey]

end Sys2Proof.Machine
end

section
/-! PROOF. Loads, the ALU and the random byte (R121 to R133). -/

namespace Sys2Proof.Machine

/-! ## What each instruction does, in every state -/

section

variable (x y : Reg) (kk : Byte) (s : State)

theorem exec_addImm : exec (.addImm x kk) s = writeResult x (addByte (s.reg x) kk) s := rfl

theorem exec_ldReg : exec (.ldReg x y) s = writeResult x (s.reg y) s := rfl

theorem exec_orReg : exec (.orReg x y) s = writeResult x (s.reg x ||| s.reg y) s := rfl

theorem exec_andReg : exec (.andReg x y) s = writeResult x (s.reg x &&& s.reg y) s := rfl

theorem exec_xorReg : exec (.xorReg x y) s = writeResult x (s.reg x ^^^ s.reg y) s := rfl

theorem exec_ldVxDt : exec (.ldVxDt x) s = writeResult x s.dt s := rfl

theorem exec_rnd : exec (.rnd x kk) s = writeResult x (s.randomByte &&& kk) s.nextDraw := rfl

theorem exec_addReg : exec (.addReg x y) s =
    writeResultFlag x (addByte (s.reg x) (s.reg y)) (carryFlag (s.reg x) (s.reg y)) s := rfl

theorem exec_sub : exec (.sub x y) s =
    writeResultFlag x (subByte (s.reg x) (s.reg y)) (notBorrowFlag (s.reg x) (s.reg y)) s := rfl

theorem exec_subn : exec (.subn x y) s =
    writeResultFlag x (subByte (s.reg y) (s.reg x)) (notBorrowFlag (s.reg y) (s.reg x)) s := rfl

theorem exec_shr : exec (.shr x y) s = writeResultFlag x (shiftRightByte (s.reg x)) (shiftRightFlag (s.reg x)) s := rfl

theorem exec_shl : exec (.shl x y) s = writeResultFlag x (shiftLeftByte (s.reg x)) (shiftLeftFlag (s.reg x)) s := rfl

/-! ## The write of a result and a flag (R120) -/

/-- What an operation that writes a result and then a flag does: it completes with the flag in VF, the result in Vx where x is not
15, and pc 2 on, and keeps the rest. -/
theorem writeResultFlag_next (r f : Byte) :
    ∃ t, writeResultFlag x r f s = .next t ∧ t.pc = s.pc + 2 ∧ t.reg 15 = f ∧ (x ≠ 15 → t.reg x = r) ∧
      KeepsRegsBut [x, 15] s t ∧ OnlyRegsAndPc s t := by
  refine ⟨_, rfl, rfl, ?flag, fun hx => ?result, fun q hq => ?others, onlyRegsAndPc_setReg_setReg s _ x vf r f⟩
  case flag => rw [State.setFlag_eq, State.setReg_reg, if_pos rfl]
  case result => rw [State.setFlag_eq, State.setReg_reg, if_neg hx, State.setReg_reg, if_pos rfl]
  case others =>
    have hx : q ≠ x := fun h => hq (by simp [h])
    have hvf : q ≠ vf := fun h => hq (by simp [h])
    rw [State.setFlag_eq, State.setReg_reg, if_neg hvf, State.setReg_reg, if_neg hx]
    rfl

/-- The same of a result and a flag known as numbers. -/
theorem writeResultFlag_toNat {r f : Byte} {m n : Nat} (hf : f.toNat = m) (hr : r.toNat = n) :
    ∃ t, writeResultFlag x r f s = .next t ∧ t.pc = s.pc + 2 ∧ (t.reg 15).toNat = m ∧ (x ≠ 15 → (t.reg x).toNat = n) ∧
      KeepsRegsBut [x, 15] s t ∧ OnlyRegsAndPc s t := by
  obtain ⟨t, hnext, hpc, hflag, hresult, hregs, honly⟩ := writeResultFlag_next x s r f
  exact ⟨t, hnext, hpc, hflag ▸ hf, fun hx => hresult hx ▸ hr, hregs, honly⟩

end

theorem carryFlag_toNat (a b : Byte) : (carryFlag a b).toNat = if 255 < a.toNat + b.toNat then 1 else 0 := by
  simp only [carryFlag, flagOf_toNat, decide_eq_true_eq]

theorem notBorrowFlag_toNat (a b : Byte) : (notBorrowFlag a b).toNat = if b.toNat ≤ a.toNat then 1 else 0 := by
  simp only [notBorrowFlag, flagOf_toNat, decide_eq_true_eq]

/-! ## No flag -/

/-- Settles O21: the instruction writes the sum of two bytes to Vx. -/
theorem addImmediateWraps : Obligations.AddImmediateWraps := by
  intro x kk s
  obtain ⟨t, hnext, hpc, hreg, hregs, honly⟩ := writeResult_next x (addByte (s.reg x) kk) s
  exact ⟨t, (exec_addImm x kk s).trans hnext, hpc, hreg ▸ addByte_toNat _ _, hregs, honly⟩

/-- Settles O22: the word is the encoding of LD Vx, Vy, which writes Vy to Vx. -/
theorem assignRegister : Obligations.AssignRegister :=
  fun x y s => ⟨decodeWord_encode (.ldReg x y), exec_ldReg x y s ▸ writeResult_next x (s.reg y) s⟩

/-- Settles O23: each instruction writes the bitwise operation of the two registers to Vx. -/
theorem bitwiseOperations : Obligations.BitwiseOperations := by
  intro x y s
  obtain ⟨t, hor, hpc, hreg, hregs, honly⟩ := writeResult_next x (s.reg x ||| s.reg y) s
  obtain ⟨u, hand, hpc', hreg', hregs', honly'⟩ := writeResult_next x (s.reg x &&& s.reg y) s
  obtain ⟨v, hxor, hpc'', hreg'', hregs'', honly''⟩ := writeResult_next x (s.reg x ^^^ s.reg y) s
  exact ⟨⟨t, (exec_orReg x y s).trans hor, hpc, hregs, honly, fun k => by rw [hreg, BitVec.getLsbD_or]⟩,
    ⟨u, (exec_andReg x y s).trans hand, hpc', hregs', honly', fun k => by rw [hreg', BitVec.getLsbD_and]⟩,
    ⟨v, (exec_xorReg x y s).trans hxor, hpc'', hregs'', honly'', fun k => by rw [hreg'', BitVec.getLsbD_xor]⟩⟩

/-- Settles O28: the instruction writes the masked draw to Vx, in the state whose counter of draws has gone up. -/
theorem randomIsMaskedDraw : Obligations.RandomIsMaskedDraw := by
  intro x kk s
  obtain ⟨t, hnext, hpc, hreg, hregs, honly⟩ := writeResult_next x (s.randomByte &&& kk) s.nextDraw
  refine ⟨t, (exec_rnd x kk s).trans hnext, hpc, fun k => ?_, hregs, honly.index, honly.stack, honly.timers, honly.display,
    honly.keypad, honly.wait, honly.memory, honly.draws⟩
  rw [hreg, BitVec.getLsbD_and, State.randomByte]

/-! ## With a flag -/

/-- A word of family 8 as the table writes it: the sub-opcode first, the register indices after it. -/
theorem decodeWord_8xyn {i : Instr} {x y : Reg} {n : BitVec 4} {m : Nat} (h : encode i = formatRR 0x8 x y n)
    (hm : m = 0x8000 + n.toNat) : decodeWord (BitVec.ofNat 16 (m + x.val * 256 + y.val * 16)) = .ok i := by
  have hword : BitVec.ofNat 16 (m + x.val * 256 + y.val * 16) = formatRR 0x8 x y n := by
    rw [formatRR_eq_ofNat, hm]
    rfl
  rw [hword, ← h, decodeWord_encode]

/-- Settles O24: the word is the encoding of ADD Vx, Vy, which writes the sum and then the carry. -/
theorem addSetsCarry : Obligations.AddSetsCarry :=
  fun x y s => ⟨decodeWord_8xyn (i := .addReg x y) (n := 4) rfl rfl,
    exec_addReg x y s ▸ writeResultFlag_toNat x s (carryFlag_toNat _ _) (addByte_toNat _ _)⟩

/-- Settles O25: the words are the encodings of SUB and SUBN, which write a difference and then the not-borrow. -/
theorem subtractSetsNotBorrow : Obligations.SubtractSetsNotBorrow :=
  fun x y s => ⟨decodeWord_8xyn (i := .sub x y) (n := 5) rfl rfl, decodeWord_8xyn (i := .subn x y) (n := 7) rfl rfl,
    exec_sub x y s ▸ writeResultFlag_toNat x s (notBorrowFlag_toNat _ _) (subByte_toNat _ _),
    exec_subn x y s ▸ writeResultFlag_toNat x s (notBorrowFlag_toNat _ _) (subByte_toNat _ _)⟩

/-- Settles O26: SHR writes the half of Vx and then its bit 0; the state it leaves does not name `y`. -/
theorem shiftRightSetsDroppedBit : Obligations.ShiftRightSetsDroppedBit := by
  intro x y s
  obtain ⟨t, hnext, hpc, hflag, hresult, hregs, honly⟩ :=
    writeResultFlag_toNat x s (shiftRightFlag_toNat (s.reg x)) (shiftRightByte_toNat (s.reg x))
  exact ⟨decodeWord_8xyn (i := .shr x y) (n := 6) rfl rfl, t, (exec_shr x y s).trans hnext, hpc, hflag, hresult,
    hregs, honly, fun y' => (exec_shr x y' s).trans hnext⟩

/-- Settles O27: SHL writes the double of Vx and then its bit 7; the state it leaves does not name `y`. -/
theorem shiftLeftSetsDroppedBit : Obligations.ShiftLeftSetsDroppedBit := by
  intro x y s
  obtain ⟨t, hnext, hpc, hflag, hresult, hregs, honly⟩ :=
    writeResultFlag_toNat x s (shiftLeftFlag_toNat (s.reg x)) (shiftLeftByte_toNat (s.reg x))
  exact ⟨t, (exec_shl x y s).trans hnext, hpc, hflag, hresult, hregs, honly, fun y' => (exec_shl x y' s).trans hnext⟩

/-- An operation that completes with a result and a flag leaves both in their registers where x is not 15. -/
theorem reg_of_writeResultFlag {x : Reg} {r f : Byte} {s t : State} (hx : x ≠ 15) (h : writeResultFlag x r f s = .next t) :
    t.reg x = r ∧ t.reg 15 = f := by
  obtain ⟨t', hnext, -, hflag, hresult, -⟩ := writeResultFlag_next x s r f
  obtain rfl : t' = t := Host.Outcome.next.inj (hnext.symm.trans h)
  exact ⟨hresult hx, hflag⟩

/-- Settles O29: the results and flags as numbers, and the identities are arithmetic on bytes. -/
theorem arithmeticIdentities : Obligations.ArithmeticIdentities := by
  intro x y s t hx
  have hvx := (s.reg x).isLt
  have hvy := (s.reg y).isLt
  refine ⟨fun h => ?sub, fun h => ?add, fun h => ?shr, fun h => ?shl, fun hy h => ?subn⟩
  case sub =>
    obtain ⟨hresult, -⟩ := reg_of_writeResultFlag hx ((exec_sub x y s).symm.trans h)
    rw [hresult, subByte_toNat]
    omega
  case add =>
    obtain ⟨hresult, -⟩ := reg_of_writeResultFlag hx ((exec_addReg x y s).symm.trans h)
    rw [hresult, addByte_toNat]
    omega
  case shr =>
    obtain ⟨hresult, hflag⟩ := reg_of_writeResultFlag hx ((exec_shr x y s).symm.trans h)
    rw [hresult, hflag, shiftRightByte_toNat, shiftRightFlag_toNat]
    omega
  case shl =>
    obtain ⟨hresult, hflag⟩ := reg_of_writeResultFlag hx ((exec_shl x y s).symm.trans h)
    rw [hresult, hflag, shiftLeftByte_toNat, shiftLeftFlag_toNat]
    omega
  case subn =>
    obtain ⟨hresult, hflag⟩ := reg_of_writeResultFlag hx ((exec_subn x y s).symm.trans h)
    obtain ⟨u, hnext, -, hflag', hresult', -⟩ :=
      writeResultFlag_next y s (subByte (s.reg y) (s.reg x)) (notBorrowFlag (s.reg y) (s.reg x))
    exact ⟨u, (exec_sub y x s).trans hnext, (hresult' hy).trans hresult.symm, hflag'.trans hflag.symm⟩

end Sys2Proof.Machine
end

section
/-! PROOF. The wait for a key, the index register and the timers (R152, R160 to R165, R194). -/

namespace Sys2Proof.Machine

section

variable (x : Reg) (nnn : Addr) (s : State)

/-! ## What each instruction does, in every state -/

theorem exec_ldVxK : exec (.ldVxK x) s = .next ((s.jump s.npc).setWait (some x)) := rfl

theorem exec_ldI : exec (.ldI nnn) s = .next ((s.jump s.npc).setIndex (zextAddr nnn)) := rfl

theorem exec_addI : exec (.addI x) s = .next ((s.jump s.npc).setIndex (s.index + zextByte (s.reg x))) := rfl

theorem exec_ldF : exec (.ldF x) s =
    .next ((s.jump s.npc).setIndex (BitVec.ofNat 16 (Config.glyphBytes * (s.reg x).toNat))) := rfl

theorem exec_ldDtVx : exec (.ldDtVx x) s = .next ((s.jump s.npc).setDt (s.reg x)) := rfl

theorem exec_ldStVx : exec (.ldStVx x) s = .next ((s.jump s.npc).setSt (s.reg x)) := rfl

end

/-- Settles O37: the advance of pc and then the write of `wait_key`, and no other part. -/
theorem waitEntersAwaitingKey : Obligations.WaitEntersAwaitingKey := by
  intro x s
  obtain ⟨hregs, hrest⟩ := onlyPc_jump s s.npc
  exact ⟨_, exec_ldVxK x s, rfl, s.npc_def, hregs, hrest.index, hrest.stack, hrest.timers, hrest.display, hrest.keypad,
    hrest.memory, hrest.draws⟩

/-- An instruction that writes I completes with pc 2 on and the value in I, and keeps the rest. -/
theorem setIndex_next {r : Result} {s : State} {w : Word} {n : Nat} (h : r = .next ((s.jump s.npc).setIndex w))
    (hw : w.toNat = n) :
    ∃ t, r = .next t ∧ t.index.toNat = n ∧ t.pc = s.pc + 2 ∧ KeepsRegs s t ∧ KeepsStack s t ∧ KeepsTimers s t ∧
      KeepsDisplay s t ∧ KeepsKeypad s t ∧ KeepsWait s t ∧ KeepsMemory s t ∧ KeepsDraws s t := by
  obtain ⟨hregs, hrest⟩ := onlyPc_jump s s.npc
  exact ⟨_, h, hw, s.npc_def, hregs, hrest.stack, hrest.timers, hrest.display, hrest.keypad, hrest.wait, hrest.memory,
    hrest.draws⟩

/-- Settles O40: each of the three writes I, with a value known as a number. -/
theorem indexRegisterWrites : Obligations.IndexRegisterWrites := by
  intro nnn x s
  have hsum : (s.index + zextByte (s.reg x)).toNat = (s.index.toNat + (s.reg x).toNat) % 65536 := by
    rw [BitVec.toNat_add, zextByte_toNat]
  have hglyph : (BitVec.ofNat 16 (Config.glyphBytes * (s.reg x).toNat)).toNat = 5 * (s.reg x).toNat :=
    Nat.mod_eq_of_lt (by have := (s.reg x).isLt; simp only [Config.glyphBytes]; omega)
  exact ⟨setIndex_next (exec_ldI nnn s) (zextAddr_toNat nnn), setIndex_next (exec_addI x s) hsum,
    setIndex_next (exec_ldF x s) hglyph⟩

/-- A word of family F as the table writes it: the sub-opcode first, the register index after it. -/
theorem decodeWord_Fxkk {i : Instr} {x : Reg} {kk : Byte} {m : Nat} (h : encode i = formatRI 0xF x kk)
    (hm : m = 0xF000 + kk.toNat) : decodeWord (BitVec.ofNat 16 (m + x.val * 256)) = .ok i := by
  have hword : BitVec.ofNat 16 (m + x.val * 256) = formatRI 0xF x kk := by
    rw [formatRI_eq_ofNat, hm]
    rfl
  rw [hword, ← h, decodeWord_encode]

/-- Settles O41: the words are the encodings; the first instruction writes a register, the other two write one timer each after the
advance of pc. -/
theorem timerReadAndWrite : Obligations.TimerReadAndWrite := by
  intro x s
  obtain ⟨t, hnext, hpc, hreg, hregsBut, honly⟩ := writeResult_next x s.dt s
  obtain ⟨hregs, hrest⟩ := onlyPc_jump s s.npc
  exact ⟨decodeWord_Fxkk (i := .ldVxDt x) (kk := 0x07) rfl rfl, decodeWord_Fxkk (i := .ldDtVx x) (kk := 0x15) rfl rfl,
    decodeWord_Fxkk (i := .ldStVx x) (kk := 0x18) rfl rfl,
    ⟨t, (exec_ldVxDt x s).trans hnext, hreg, hpc, hregsBut, honly⟩,
    ⟨_, exec_ldDtVx x s, rfl, rfl, s.npc_def, hregs, hrest.index, hrest.stack, hrest.display, hrest.keypad, hrest.wait,
      hrest.memory, hrest.draws⟩,
    ⟨_, exec_ldStVx x s, rfl, rfl, s.npc_def, hregs, hrest.index, hrest.stack, hrest.display, hrest.keypad, hrest.wait,
      hrest.memory, hrest.draws⟩⟩

/-- One timer's tick, as a number: one less, and 0 where it is 0. -/
theorem tick_toNat (b : Byte) : (tick b).toNat = b.toNat - 1 := by
  have := b.isLt
  unfold tick
  split
  · rw [BitVec.toNat_ofNat]
    omega
  · omega

theorem hostAct_timerTick (font : Config.Font) (s : State) :
    hostAct font .timerTick s = .next ((s.setDt (tick s.dt)).setSt (tick s.st)) := rfl

/-- Settles O56: the tick writes the two timers and no other part. -/
theorem timerTickDecrementsBoth : Obligations.TimerTickDecrementsBoth := by
  intro font s
  exact ⟨_, hostAct_timerTick font s, tick_toNat s.dt, tick_toNat s.st, rfl, fun _ => rfl, rfl, ⟨rfl, fun _ => rfl⟩,
    fun _ => rfl, fun _ => rfl, rfl, fun _ => rfl, rfl⟩

end Sys2Proof.Machine
end

section
/-! PROOF. Memory: one byte, the transfers at I, and the image of a reset (R55, R166 to R168, R211). -/

namespace Sys2Proof.Machine

/-- Settles O47: a write up to 0xFFF is made and changes the one address, above 0xFFF neither access is made. -/
theorem memoryReadAfterWrite : Obligations.MemoryReadAfterWrite := by
  intro s a b
  rcases s.memWrite_cases a b with ⟨hout, hnone⟩ | ⟨hin, m, hwrite, -, hread⟩
  · exact ⟨fun hin => absurd hin (Nat.not_le_of_lt hout), fun _ => ⟨Memory.read_of_gt hout, hnone⟩⟩
  · refine ⟨fun _ => ⟨_, _, Memory.read_of_le hin, hwrite, ?_, fun c hc => ?_⟩, fun hout => absurd hin (Nat.not_le_of_lt hout)⟩
    · rw [State.setMem_memRead, hread, if_pos rfl]
    · rw [State.setMem_memRead, hread, if_neg hc]

/-- What a completed store at I leaves: the stored bytes, every other byte as before, pc 2 on, and the rest kept. -/
theorem store_next {r : Result} {s : State} {m : Memory} {bs : List Byte} {n : Nat}
    (h : r = .next ((s.setMem m).advance))
    (hread : ∀ a, m.read a = if s.index.toNat ≤ a ∧ a < s.index.toNat + n then bs[a - s.index.toNat]? else s.memRead a) :
    ∃ t, r = .next t ∧ t.pc = s.pc + 2 ∧ (∀ k, k < n → t.memRead (s.index.toNat + k) = bs[k]?) ∧
      KeepsMemoryOutside s.index.toNat n s t ∧ KeepsRegs s t ∧ KeepsIndex s t ∧ KeepsStack s t ∧ KeepsTimers s t ∧
      KeepsDisplay s t ∧ KeepsKeypad s t ∧ KeepsWait s t ∧ KeepsDraws s t := by
  refine ⟨_, h, rfl, fun k hk => (hread _).trans ?_, fun a ha => (hread a).trans ?_, fun _ => rfl, rfl, ⟨rfl, fun _ => rfl⟩,
    ⟨rfl, rfl⟩, fun _ => rfl, fun _ => rfl, rfl, rfl⟩
  · rw [if_pos (by omega), Nat.add_sub_cancel_left]
  · rw [if_neg (by omega)]

/-- Settles O42: below the bound the instruction stores the three digits. -/
theorem storeDecimalDigits : Obligations.StoreDecimalDigits := by
  intro x s hin
  obtain ⟨-, m, -, hread, hexec⟩ := (execLdB_cases x s).resolve_left fun h => absurd hin (Nat.not_le_of_lt h.1)
  obtain ⟨t, hnext, hpc, hdigits, hrest⟩ := store_next hexec hread
  exact ⟨t, hnext, hpc, hdigits 0 (by omega), hdigits 1 (by omega), hdigits 2 (by omega), hrest⟩

/-- Settles O43: below the bound the instruction stores V0 to Vx, Vr at I + r. -/
theorem storeRegisters : Obligations.StoreRegisters := by
  intro x s hin
  obtain ⟨-, m, -, hread, hexec⟩ := (execLdMemVx_cases x s).resolve_left fun h => absurd hin (Nat.not_le_of_lt h.1)
  obtain ⟨t, hnext, hpc, hstored, hrest⟩ := store_next hexec hread
  exact ⟨t, hnext, hpc, fun r hr => (hstored r.val (Nat.lt_succ_of_le hr)).trans (s.regsTo_getElem? x r hr), hrest⟩

/-- A write of the registers after a jump changes the registers and pc. -/
theorem onlyRegsAndPc_setRegs (s : State) (w : Word) (bs : List Byte) : OnlyRegsAndPc s ((s.jump w).setRegs bs) :=
  onlyRegsAndPc_of_fields ((s.jump w).setRegs_index bs) ((s.jump w).setRegs_stack bs) ((s.jump w).setRegs_sp bs)
    ((s.jump w).setRegs_dt bs) ((s.jump w).setRegs_st bs) ((s.jump w).setRegs_display bs) ((s.jump w).setRegs_keys bs)
    ((s.jump w).setRegs_waitKey bs) ((s.jump w).setRegs_mem bs) ((s.jump w).setRegs_draws bs)

/-- Settles O44: the word is the encoding; below the bound Vr becomes the byte at I + r, above it the instruction faults. -/
theorem loadRegisters : Obligations.LoadRegisters := by
  intro x s
  refine ⟨decodeWord_Fxkk (i := .ldVxMem x) (kk := 0x65) rfl rfl, fun hin => ?loaded,
    fun hout => exec_of_raises (.loadOutside x hout)⟩
  obtain ⟨-, bs, hlen, hbytes, hexec⟩ := (execLdVxMem_cases x s).resolve_left fun h => absurd hin (Nat.not_le_of_lt h.1)
  refine ⟨_, hexec, s.npc_def, fun r hr => ?inside, fun r hr => ?above, onlyRegsAndPc_setRegs s s.npc bs⟩
  case inside =>
    have hlt : r.val < bs.length := by rw [hlen]; exact Nat.lt_succ_of_le hr
    rw [State.setRegs_reg, ← hbytes r.val (hlen ▸ hlt), List.getD_eq_getElem _ _ hlt, List.getElem?_eq_getElem hlt]
  case above =>
    have hle : bs.length ≤ r.val := by rw [hlen]; exact hr
    rw [State.setRegs_reg, List.getD_eq_default _ _ hle]
    rfl

/-- Settles O54: of the two things a reset can do only the refusal is left for an image that does not fit. -/
theorem overlongImageIsRefused : Obligations.OverlongImageIsRefused := by
  intro font rom s hlong
  rcases resetWith_cases font rom s with ⟨-, hrefused⟩ | ⟨hfits, -⟩
  · exact hrefused
  · exact absurd hfits (Nat.not_le_of_lt hlong)

end Sys2Proof.Machine
end

section
/-! PROOF. The sound timer is never read (R27): writing it before a step or after it comes to the same. -/

namespace Sys2Proof.Machine

/-- The outcome with ST replaced by `b` in its next state. -/
def withSt (b : Byte) : Result → Result
  | .next t => .next (t.setSt b)
  | .fault f => .fault f
  | .refused r => .refused r

section

variable (b : Byte) (s : State)

theorem State.skipIf_setSt (c : Bool) : (s.setSt b).skipIf c = (s.skipIf c).setSt b := by
  cases c <;> rfl

theorem State.pop_setSt : (s.setSt b).pop = s.pop.map fun p => (p.1, p.2.setSt b) := by
  rcases s.pop_cases with ⟨hzero, hpop⟩ | ⟨hpos, hpop⟩ <;> rw [hpop]
  · exact dif_neg (by simp [hzero])
  · exact dif_pos hpos

theorem State.push_setSt (w : Word) : (s.setSt b).push w = (s.push w).map fun t => t.setSt b := by
  rcases s.push_cases w with ⟨hfull, hpush⟩ | ⟨hlt, hpush⟩ <;> rw [hpush]
  · exact dif_neg (by simp [hfull])
  · exact dif_pos hlt

theorem execRet_setSt : execRet (s.setSt b) = withSt b (execRet s) := by
  unfold execRet
  rw [State.pop_setSt]
  cases s.pop <;> rfl

theorem execCall_setSt (nnn : Addr) : execCall nnn (s.setSt b) = withSt b (execCall nnn s) := by
  unfold execCall
  rw [State.push_setSt, show (s.setSt b).npc = s.npc from rfl]
  cases s.push s.npc <;> rfl

theorem execDrw_setSt (x y : Reg) (n : Rows) : execDrw x y n (s.setSt b) = withSt b (execDrw x y n s) := by
  unfold execDrw
  rw [show (s.setSt b).bytesAtIndex n.val = s.bytesAtIndex n.val from rfl]
  cases s.bytesAtIndex n.val <;> rfl

theorem execLdVxMem_setSt (x : Reg) : execLdVxMem x (s.setSt b) = withSt b (execLdVxMem x s) := by
  unfold execLdVxMem
  rw [show (s.setSt b).bytesAtIndex (x.val + 1) = s.bytesAtIndex (x.val + 1) from rfl]
  cases s.bytesAtIndex (x.val + 1) <;> rfl

theorem storeBytes_setSt (bs : List Byte) : storeBytes bs (s.setSt b) = withSt b (storeBytes bs s) := by
  unfold storeBytes State.storeAtIndex
  rw [State.setSt_mem, State.setSt_index]
  cases s.mem.writeBytes s.index.toNat bs <;> rfl

theorem execSkp_setSt (x : Reg) : execSkp x (s.setSt b) = withSt b (execSkp x s) := by
  unfold execSkp
  rw [show (s.setSt b).keyNumber x = s.keyNumber x from rfl]
  cases s.keyNumber x with
  | none => rfl
  | some k => exact congrArg Host.Outcome.next (s.skipIf_setSt b _)

theorem execSknp_setSt (x : Reg) : execSknp x (s.setSt b) = withSt b (execSknp x s) := by
  unfold execSknp
  rw [show (s.setSt b).keyNumber x = s.keyNumber x from rfl]
  cases s.keyNumber x with
  | none => rfl
  | some k => exact congrArg Host.Outcome.next (s.skipIf_setSt b _)

/-- Every instruction but `LD ST, Vx` commutes with a write of ST: none reads it. -/
theorem exec_setSt {i : Instr} (hi : ∀ x, i ≠ .ldStVx x) : exec i (s.setSt b) = withSt b (exec i s) := by
  cases i with
  | ldStVx x => exact absurd rfl (hi x)
  | ret => exact execRet_setSt b s
  | call nnn => exact execCall_setSt b s nnn
  | drw x y n => exact execDrw_setSt b s x y n
  | skp x => exact execSkp_setSt b s x
  | sknp x => exact execSknp_setSt b s x
  | ldB x => exact storeBytes_setSt b s (bcdDigits (s.reg x))
  | ldMemVx x => exact storeBytes_setSt b s (s.regsTo x)
  | ldVxMem x => exact execLdVxMem_setSt b s x
  | seImm | sneImm | seReg | sneReg => exact congrArg Host.Outcome.next (s.skipIf_setSt b _)
  | _ => rfl

/-- `LD ST, Vx` overwrites ST, so a write of ST before it leaves no trace. -/
theorem exec_ldStVx_setSt (x : Reg) : exec (.ldStVx x) (s.setSt b) = exec (.ldStVx x) s := rfl

theorem pollKeypad_setSt (r : Reg) : pollKeypad r (s.setSt b) = (pollKeypad r s).setSt b := by
  unfold pollKeypad
  rw [show (s.setSt b).lowestKey = s.lowestKey from rfl]
  cases s.lowestKey <;> rfl

/-- A step after a write of ST is the step with ST written after it, or, where it writes ST itself, the same step. -/
theorem step_setSt : step (s.setSt b) = withSt b (step s) ∨ step (s.setSt b) = step s := by
  have hfetch : (s.setSt b).fetchInstr = s.fetchInstr := rfl
  unfold step
  rw [State.setSt_waitKey, hfetch]
  cases s.waitKey with
  | some r => exact .inl (congrArg Host.Outcome.next (pollKeypad_setSt b s r))
  | none =>
    cases s.fetchInstr with
    | error f => exact .inl rfl
    | ok i =>
      by_cases hi : ∃ x, i = .ldStVx x
      · obtain ⟨x, rfl⟩ := hi
        exact .inr (exec_ldStVx_setSt b s x)
      · exact .inl (exec_setSt b s fun x hx => hi ⟨x, hx⟩)

end

/-- Settles O58: the step after the write of ST has the same status, and its next state differs in ST at most. -/
theorem soundTimerIsNeverRead : Obligations.SoundTimerIsNeverRead := by
  intro s b
  rcases step_setSt b s with hst | hst <;> refine ⟨fun t ht => ?_, fun f hf => ?_⟩
  · exact ⟨t.setSt b, by rw [hst, ht]; rfl, rfl⟩
  · rw [hst, hf]; rfl
  · exact ⟨t, hst.trans ht, rfl⟩
  · exact hst.trans hf

end Sys2Proof.Machine
end
